-- ==== Sys2Proof/Word.lean ====
section
/-! DEFINITION. The bit-vector types of the crvemu CORE (00_scope.md R8, R10). -/

namespace Sys2Proof

/-- A register value or an address: 64 bits with no sign of its own (R8 XLEN, R10). -/
abbrev Word := BitVec 64

/-- One byte of the memory bank (20_memory.md R51). -/
abbrev Byte := BitVec 8

/-- An instruction word: 32 bits (30_encoding.md R90). -/
abbrev InstrWord := BitVec 32

/-- A register index: 5 bits, x0 to x31 (10_state.md R20). -/
abbrev RegIx := BitVec 5

end Sys2Proof
end

