-- ==== Sys2Proof/Machine/Flags.lean ====
section
/-! DEFINITION. What the ALU computes (41_integer_alu.md R150): a sum and no flag. The CORE has no status flags or
condition codes (10_state.md R30), so there is no flag computation to define. -/

namespace Sys2Proof.Machine

/-- `alu_add(a, b) = (a + b) mod 2^64`, with no carry, overflow or other flag output (R150). -/
def aluAdd (a b : Word) : Word := a + b

end Sys2Proof.Machine
end

