-- ==== Sys2Proof/Config.lean ====
section
/-! DEFINITION. What is fixed for one CORE: the construction parameters MEM_BASE, MEM_CAPACITY and IS_FATAL
(00_scope.md R8). -/

namespace Sys2Proof

/-- The kinds of fault, a closed set (60_exceptions.md R190). Only `illegalInstruction`, `loadAccessFault` and
`storeAMOAccessFault` are ever raised (R194). -/
inductive FaultKind where
  | instructionAddressMisaligned
  | instructionAccessFault
  | illegalInstruction
  | breakpoint
  | loadAddressMisaligned
  | loadAccessFault
  | storeAMOAddressMisaligned
  | storeAMOAccessFault
  | environmentCallFromUMode
  | environmentCallFromSMode
  | environmentCallFromMMode
  | instructionPageFault
  | loadPageFault
  | storeAMOPageFault
deriving DecidableEq, Repr

/-- IS_FATAL of the twelve kinds R193 leaves open, one bit each (60_exceptions.md R193). The two other kinds are
fatal in every CORE, so they have no bit. -/
structure FatalTable where
  instructionAddressMisaligned : Bool
  breakpoint : Bool
  loadAddressMisaligned : Bool
  loadAccessFault : Bool
  storeAMOAddressMisaligned : Bool
  storeAMOAccessFault : Bool
  environmentCallFromUMode : Bool
  environmentCallFromSMode : Bool
  environmentCallFromMMode : Bool
  instructionPageFault : Bool
  loadPageFault : Bool
  storeAMOPageFault : Bool
deriving DecidableEq, Repr

/-- The table of a predicate on kinds. -/
def FatalTable.ofPred (f : FaultKind → Bool) : FatalTable :=
  { instructionAddressMisaligned := f .instructionAddressMisaligned
    breakpoint := f .breakpoint
    loadAddressMisaligned := f .loadAddressMisaligned
    loadAccessFault := f .loadAccessFault
    storeAMOAddressMisaligned := f .storeAMOAddressMisaligned
    storeAMOAccessFault := f .storeAMOAccessFault
    environmentCallFromUMode := f .environmentCallFromUMode
    environmentCallFromSMode := f .environmentCallFromSMode
    environmentCallFromMMode := f .environmentCallFromMMode
    instructionPageFault := f .instructionPageFault
    loadPageFault := f .loadPageFault
    storeAMOPageFault := f .storeAMOPageFault }

/-- The parameters of a construction: MEM_BASE, MEM_CAPACITY, and IS_FATAL as the table of its open part
(00_scope.md R8). -/
structure Params where
  memBase : Word
  memCapacity : Nat
  fatal : FatalTable
deriving DecidableEq, Repr

/-- The constraint R8 sets on a construction: the bank has a byte and does not pass the top of the address space. -/
def Params.legal (p : Params) : Bool :=
  decide (1 ≤ p.memCapacity) && decide (p.memBase.toNat + p.memCapacity ≤ 2 ^ 64)

/-- The reference configuration: 128 MiB at 0 (R8).
DESIGN CHOICE (log 1): `State.reset` is the reset of this configuration.
DESIGN CHOICE (log 2): the spec gives no reference value for the open part of IS_FATAL; here none of it is fatal. -/
def Params.reference : Params :=
  { memBase := 0, memCapacity := 134217728, fatal := FatalTable.ofPred fun _ => false }

/-- SP_INIT = MEM_CAPACITY - 1, for every base (R8, 90_conflicts.md C2). -/
def Params.spInit (p : Params) : Word := BitVec.ofNat 64 (p.memCapacity - 1)

end Sys2Proof
end

