-- ==== Sys2Proof/Machine/State.lean ====
section
/-! DEFINITION. The state of the CORE, the reasons a step can stop, and the state after reset. -/

namespace Sys2Proof.Machine

/-- The run state (10_state.md R28). -/
inductive RunState where
  | running
  | halted
deriving DecidableEq, Repr

/-- `Fault(K, v)`: a fault of the spec, a kind with a 64-bit value (60_exceptions.md R190, R191). Taking one is a
next state (R196), so it is no `Fault` below. -/
structure FaultRecord where
  kind : FaultKind
  value : Word
deriving DecidableEq, Repr

/-- The memory bank: pairs of a bank index and a byte, indices rising, no byte zero; an unlisted index reads as
zero (20_memory.md R51, R52). The key is the spec's bank index `address - MEM_BASE` (DESIGN CHOICE, log 7). -/
abbrev Memory := List Host.Cell

/-- Why the machine stops. -/
inductive Fault where
  /-- Raised by `step` in the Halted state, where no step is enabled (10_state.md R28, 40_fetch_unit.md R131).
  Safe (DESIGN CHOICE, log 5). -/
  | halted
deriving DecidableEq, Repr

/-- Why the model gives no meaning. -/
inductive Refusal where
  /-- An instruction that `exec` has no meaning for; no arm answers it. Safe. -/
  | notModelled (mnemonic : String)
  /-- Raised by `construct` for parameters outside R8's constraint (00_scope.md R8). Safe. -/
  | badParameters
  /-- Raised by `construct` for an image longer than the bank (70_reset_and_hazards.md R232). Safe. -/
  | imageTooLong
deriving DecidableEq, Repr

/-- The state (10_state.md, with the parameters of 00_scope.md R8). -/
structure State where
  /-- MEM_BASE, MEM_CAPACITY and IS_FATAL; no operation writes them (DESIGN CHOICE, log 1). -/
  cfg : Params
  /-- The register file (R20). Cell 0 is never read (R21, log 8). -/
  regs : Vector Word 32
  /-- The program counter (R25). -/
  pc : Word
  /-- The run state (R28). -/
  run : RunState
  /-- The fault latch (R27). -/
  flt : Option FaultRecord
  /-- The memory bank (20_memory.md R51). -/
  mem : Memory
deriving DecidableEq, Repr

/-- The reset state of parameters `p` with bank contents `m` (10_state.md R29, 70_reset_and_hazards.md R231). -/
def State.resetWith (p : Params) (m : Memory) : State :=
  { cfg := p
    regs := (Vector.replicate 32 0).set 2 p.spInit
    pc := p.memBase
    run := .running
    flt := none
    mem := m }

/-- The machine right after reset: the reference configuration (log 1) with the empty image (log 16). -/
def State.reset : State := State.resetWith Params.reference []

end Sys2Proof.Machine
end

