-- ==== Sys2Proof/Machine/Ops.lean ====
section
/-! DEFINITION. The named operations over memory, registers, the pc and the fault latch. -/

namespace Sys2Proof.Machine

/-! ## The memory bank as a list (20_memory.md R51, R52) -/

/-- The canonical form: indices rise strictly and no listed byte is zero, what an unlisted index reads as. -/
abbrev Memory.wf (m : Memory) : Prop :=
  m.Pairwise (fun c d => c.1 < d.1) ∧ ∀ c ∈ m, c.2 ≠ 0#8

/-- `mem[a]`; zero where nothing is listed (R52). -/
def Memory.get : Memory → Nat → Byte
  | [], _ => 0#8
  | (k, b) :: m, a => if k < a then Memory.get m a else if k = a then b else 0#8

/-- The cell to list for byte `b` at index `a`: none for zero. -/
def Memory.cell (a : Nat) (b : Byte) : Memory := if b = 0#8 then [] else [(a, b)]

/-- `mem[a] := b`, keeping the canonical form. -/
def Memory.set : Memory → Nat → Byte → Memory
  | [], a, b => Memory.cell a b
  | (k, c) :: m, a, b =>
    if k < a then (k, c) :: Memory.set m a b
    else if k = a then Memory.cell a b ++ m
    else Memory.cell a b ++ (k, c) :: m

/-- The canonical list of an image's bytes from index `k` on (R52). -/
def imageCells : Nat → List Byte → Memory
  | _, [] => []
  | k, b :: img => Memory.cell k b ++ imageCells (k + 1) img

/-! ## MEM: little-endian access to the bank (R53 to R58) -/

/-- The low byte of `v >> 8k` (R58). -/
def byteOf (v : Word) (k : Nat) : Byte := (v >>> (8 * k)).setWidth 8

/-- `MemBankRead(index, n)` (R56). -/
def bankRead (m : Memory) (index : Nat) : Nat → Word
  | 0 => 0#64
  | n + 1 => bankRead m index n ||| (Memory.get m (index + n)).setWidth 64 <<< (8 * n)

/-- `MemBankWrite(index, n, v)` (R58). -/
def bankWrite (m : Memory) (index : Nat) (v : Word) : Nat → Memory
  | 0 => m
  | n + 1 => Memory.set (bankWrite m index v n) (index + n) (byteOf v n)

/-- The access sizes, in bits (R57). -/
def legalSize (size : Nat) : Bool := size == 8 || size == 16 || size == 32 || size == 64

/-- `index = address - MEM_BASE`, in 64 bits (R54). -/
def bankIndex (p : Params) (addr : Word) : Nat := (addr - p.memBase).toNat

/-- The fault of a failing read, with the access's address as value (R65, R66). -/
def loadFault (addr : Word) : FaultRecord := { kind := .loadAccessFault, value := addr }

/-- The fault of a failing write, with the access's address as value (R65, R66). -/
def storeFault (addr : Word) : FaultRecord := { kind := .storeAMOAccessFault, value := addr }

/-- Replaces the bank's contents. -/
def State.setMem (s : State) (m : Memory) : State := { s with mem := m }

/-- MEM's `load` (R53): the size check R57, the bound check R55, then the read. -/
def memLoad (s : State) (addr : Word) (size : Nat) : Except FaultRecord Word :=
  if legalSize size = false then .error (loadFault addr)
  else if s.cfg.memCapacity < bankIndex s.cfg addr + size / 8 then .error (loadFault addr)
  else .ok (bankRead s.mem (bankIndex s.cfg addr) (size / 8))

/-- MEM's `store` (R53): the same checks, all before any byte is written (R64). -/
def memStore (s : State) (addr : Word) (size : Nat) (v : Word) : Except FaultRecord State :=
  if legalSize size = false then .error (storeFault addr)
  else if s.cfg.memCapacity < bankIndex s.cfg addr + size / 8 then .error (storeFault addr)
  else .ok (s.setMem (bankWrite s.mem (bankIndex s.cfg addr) v (size / 8)))

/-! ## BUS (R60 to R67) -/

/-- The first address of an access lies in the bank (R60; `a < BASE + CAPACITY` is `a <= BASE + CAPACITY - 1`). -/
def inRange (p : Params) (addr : Word) : Bool :=
  decide (p.memBase.toNat ≤ addr.toNat) && decide (addr.toNat < p.memBase.toNat + p.memCapacity)

/-- `MemReadBits(a, s)` (R63): out of range is a fault (R62), else MEM answers (R61). -/
def busLoad (s : State) (addr : Word) (size : Nat) : Except FaultRecord Word :=
  if inRange s.cfg addr then memLoad s addr size else .error (loadFault addr)

/-- `MemWriteBits(a, s, v)` (R64). -/
def busStore (s : State) (addr : Word) (size : Nat) (v : Word) : Except FaultRecord State :=
  if inRange s.cfg addr then memStore s addr size v else .error (storeFault addr)

/-! ## RF (10_state.md R21) -/

/-- Read of `x[i]`: x0 reads as zero (R21). -/
def readReg (s : State) (i : RegIx) : Word :=
  if i = 0#5 then 0#64 else s.regs[i.toNat]'i.isLt

/-- The register file after `x[i] <- v`: a write to x0 is dropped (R21). -/
def rfWrite (rf : Vector Word 32) (i : RegIx) (v : Word) : Vector Word 32 :=
  if i = 0#5 then rf else rf.set i.toNat v i.isLt

/-- `x[i] <- v` (R21). -/
def writeReg (s : State) (i : RegIx) (v : Word) : State := { s with regs := rfWrite s.regs i v }

/-! ## The pc (10_state.md R25; 40_fetch_unit.md R129, R130) -/

/-- `pc <- t`. -/
def setPc (s : State) (t : Word) : State := { s with pc := t }

/-- `UpdatePc()`: pc + 4 modulo 2^64 (R129). -/
def updatePc (s : State) : Word := s.pc + 4#64

/-- A completing instruction: `x[rd] <- v`, then `pc <- UpdatePc()` (R127, R128). -/
def retire (s : State) (rd : RegIx) (v : Word) : State := setPc (writeReg s rd v) (updatePc s)

/-! ## Fault entry (60_exceptions.md R196). There is no return from a fault (R199). -/

/-- `flt <- f; run <- Halted`, and nothing else (R196, R197). -/
def takeFault (s : State) (f : FaultRecord) : State := { s with flt := some f, run := .halted }

/-- `raise IllegalInstruction(value)` (30_encoding.md R97). -/
def illegalFault (value : Word) : FaultRecord := { kind := .illegalInstruction, value := value }

end Sys2Proof.Machine
end

