-- ==== Sys2Proof/Machine/Operands.lean ====
section
/-! DEFINITION. The operand forms (30_encoding.md R95): a register index and the I-type immediate. -/

namespace Sys2Proof.Machine

/-- A source operand: `rf_rd1` or `rf_rd2` of a register, or `id_imm` (R95; 41_integer_alu.md R150). -/
inductive Source where
  | reg (i : RegIx)
  | imm (v : Word)
deriving DecidableEq, Repr

/-- The value of a source operand, before the step's write (10_state.md R23, 41_integer_alu.md R153). -/
def sourceValue (s : State) : Source → Word
  | .reg i => readReg s i
  | .imm v => v

end Sys2Proof.Machine
end

