-- ==== Sys2Proof/Machine/IntegerAlu.lean ====
section
/-! DEFINITION. The meanings of ADDI and ADD (41_integer_alu.md). -/

namespace Sys2Proof.Machine

/-- The state after an ALU instruction: both sources are read first (R153), then rd and the pc are written. -/
def aluStep (rd : RegIx) (a b : Source) (s : State) : State :=
  retire s rd (aluAdd (sourceValue s a) (sourceValue s b))

/-- ADDI (R151): `x[rd] <- x[rs1] + imm`, next pc = pc + 4; no flags, no exceptions. -/
def execAddi (rd rs1 : RegIx) (imm : Word) (s : State) : Host.Outcome State Fault Refusal :=
  .next (aluStep rd (.reg rs1) (.imm imm) s)

/-- ADD (R152): `x[rd] <- x[rs1] + x[rs2]`, next pc = pc + 4; no flags, no exceptions. -/
def execAdd (rd rs1 rs2 : RegIx) (s : State) : Host.Outcome State Fault Refusal :=
  .next (aluStep rd (.reg rs1) (.reg rs2) s)

end Sys2Proof.Machine
end

