-- ==== Sys2Proof/Syntax.lean ====
section
/-! DEFINITION. The instructions: one constructor per row of spec/opcode_table.json. -/

namespace Sys2Proof

/-- A decoded instruction, as ID hands it on (30_encoding.md R96, R99).
The immediate is the 64-bit value of port `id_imm`; funct3 and funct7 are not examined (R98) and not kept
(DESIGN CHOICE, log 10). -/
inductive Instr where
  /-- ADDI rd, rs1, imm (41_integer_alu.md R151). -/
  | addi (rd rs1 : RegIx) (imm : Word)
  /-- ADD rd, rs1, rs2 (41_integer_alu.md R152). -/
  | add (rd rs1 rs2 : RegIx)
deriving DecidableEq, Repr

end Sys2Proof
end

