-- ==== Sys2Proof/Machine/Dispatch.lean ====
section
/-! DEFINITION. One arm per instruction (40_fetch_unit.md R128). -/

namespace Sys2Proof.Machine

/-- `Execute` of a decoded instruction, the pc write of the step included (R127, R128).
It does not look at the run state, since a step calls it while Running only (DESIGN CHOICE, log 6). -/
def exec (i : Instr) (s : State) : Host.Outcome State Fault Refusal :=
  match i with
  | .addi rd rs1 imm => Sys2Proof.Machine.execAddi rd rs1 imm s
  | .add rd rs1 rs2 => Sys2Proof.Machine.execAdd rd rs1 rs2 s

end Sys2Proof.Machine
end

