-- ==== Sys2Proof/WellFormed.lean ====
section
/-! DEFINITION. Which instruction terms an encoding exists for. -/

namespace Sys2Proof

/-- The range of the I-type immediate, -2048 to 2047 (30_encoding.md R94). -/
def fitsImm12 (imm : Word) : Bool :=
  decide (-2048 ≤ imm.toInt) && decide (imm.toInt ≤ 2047)

/-- An ADDI's immediate is in the I-type range (R94); a register index is 5 bits by its type (R95). -/
def Instr.wf : Instr → Bool
  | .addi _ _ imm => fitsImm12 imm
  | .add _ _ _ => true

end Sys2Proof
end

