-- ==== Sys2Proof/Decode.lean ====
section
/-! DEFINITION. ID, the instruction decoder (30_encoding.md), and the encoder of the same formats. -/

namespace Sys2Proof

/-! ## Fields (R91). The opcode and imm_i positions are the source's; the others are the spec's from general
knowledge (PRESUMED, log 3). -/

/-- `word[6:0]`. -/
def fieldOpcode (w : InstrWord) : BitVec 7 := w.extractLsb' 0 7
/-- `word[11:7]`. -/
def fieldRd (w : InstrWord) : RegIx := w.extractLsb' 7 5
/-- `word[14:12]`, not examined (R98). -/
def fieldFunct3 (w : InstrWord) : BitVec 3 := w.extractLsb' 12 3
/-- `word[19:15]`. -/
def fieldRs1 (w : InstrWord) : RegIx := w.extractLsb' 15 5
/-- `word[24:20]`. -/
def fieldRs2 (w : InstrWord) : RegIx := w.extractLsb' 20 5
/-- `word[31:25]`, not examined (R98). -/
def fieldFunct7 (w : InstrWord) : BitVec 7 := w.extractLsb' 25 7
/-- `word[31:20]`. -/
def fieldImmI (w : InstrWord) : BitVec 12 := w.extractLsb' 20 12

/-- `sext_12` (00_scope.md R10). -/
def sext12 (v : BitVec 12) : Word := v.signExtend 64

/-- The I-type immediate, `sext_12(word[31:20])` (R94). -/
def immI (w : InstrWord) : Word := sext12 (fieldImmI w)

/-! ## The decoder -/

/-- Port `id_class` (R99). -/
inductive InstrClass where
  | addi
  | add
  | illegal
deriving DecidableEq, Repr

/-- Dispatch on the opcode alone (R96, R98). -/
def classOf (opcode : BitVec 7) : InstrClass :=
  if opcode = 0x13#7 then .addi else if opcode = 0x33#7 then .add else .illegal

/-- ID's output ports (R99). -/
structure IdOut where
  cls : InstrClass
  opcode : BitVec 7
  rd : RegIx
  funct3 : BitVec 3
  rs1 : RegIx
  rs2 : RegIx
  funct7 : BitVec 7
  imm : Word
deriving DecidableEq, Repr

/-- ID: a function of the word, with no state (R99). -/
def idOut (w : InstrWord) : IdOut :=
  { cls := classOf (fieldOpcode w), opcode := fieldOpcode w, rd := fieldRd w, funct3 := fieldFunct3 w,
    rs1 := fieldRs1 w, rs2 := fieldRs2 w, funct7 := fieldFunct7 w, imm := immI w }

/-- What `Decode` of R96 answers: ADDI or ADD, or ILLEGAL with the opcode as value. -/
inductive Decoded where
  | instr (i : Instr)
  | illegal (value : Word)
deriving DecidableEq, Repr

/-- `Decode(word)` (R96), total on 32-bit words; the value of ILLEGAL is the zero-extended opcode (R97). -/
def decodeWord (w : InstrWord) : Decoded :=
  match (idOut w).cls with
  | .addi => .instr (.addi (idOut w).rd (idOut w).rs1 (idOut w).imm)
  | .add => .instr (.add (idOut w).rd (idOut w).rs1 (idOut w).rs2)
  | .illegal => .illegal ((idOut w).opcode.setWidth 64)

/-- The word of four bytes, the first the lowest-addressed (R90; 40_fetch_unit.md R121). -/
def wordOfBytes (b0 b1 b2 b3 : Byte) : InstrWord := b3 ++ b2 ++ b1 ++ b0

/-- The four bytes of a word, lowest address first. -/
def bytesOfWord (w : InstrWord) : List Byte :=
  [w.extractLsb' 0 8, w.extractLsb' 8 8, w.extractLsb' 16 8, w.extractLsb' 24 8]

/-- Why `decodeBytes` gives no instruction. -/
inductive DecodeReject where
  /-- Fewer than four bytes; the fetch unit never asks this (log 17). -/
  | tooShort
  /-- An opcode other than 0x13 and 0x33, with the fault's value (R97). -/
  | illegalInstruction (value : Word)
deriving DecidableEq, Repr

/-- Decoding any bytes: the instruction of the first four and the bytes after them, or the reason there is none. -/
def decodeBytes : List Byte → Except DecodeReject (Instr × List Byte)
  | b0 :: b1 :: b2 :: b3 :: rest =>
    match decodeWord (wordOfBytes b0 b1 b2 b3) with
    | .instr i => .ok (i, rest)
    | .illegal v => .error (.illegalInstruction v)
  | _ => .error .tooShort

/-! ## The encoder (R103) -/

/-- The word of an instruction, with funct3 = 0 and funct7 = 0 (R103; PRESUMED, log 9). -/
def encode : Instr → InstrWord
  | .addi rd rs1 imm =>
    (imm.setWidth 32 &&& 0xFFF#32) <<< 20 ||| rs1.setWidth 32 <<< 15 ||| rd.setWidth 32 <<< 7 ||| 0x13#32
  | .add rd rs1 rs2 =>
    rs2.setWidth 32 <<< 20 ||| rs1.setWidth 32 <<< 15 ||| rd.setWidth 32 <<< 7 ||| 0x33#32

/-- The four bytes of an instruction as an image holds them (20_memory.md R68). -/
def encodeBytes (i : Instr) : List Byte := bytesOfWord (encode i)

/-- The bits of a word that the decoder examines, by its class (R96, R98; the table's `-` bits are the rest). -/
def examinedMask (w : InstrWord) : InstrWord :=
  match classOf (fieldOpcode w) with
  | .addi => 0xFFFF8FFF#32
  | .add => 0x01FF8FFF#32
  | .illegal => 0x0000007F#32

/-! ## Pseudo-instructions (R105; PRESUMED, log 15) -/

/-- `nop` = `addi x0, x0, 0`. -/
def asmNop : Instr := .addi 0 0 0
/-- `mv rd, rs` = `addi rd, rs, 0`. -/
def asmMv (rd rs : RegIx) : Instr := .addi rd rs 0
/-- `li rd, imm` = `addi rd, x0, imm`, with the 12-bit immediate sign-extended. -/
def asmLi (rd : RegIx) (imm : BitVec 12) : Instr := .addi rd 0 (sext12 imm)

/-! ## The opcode table's numbering of bits -/

/-- The 32-bit word of a table word of `nbits` bits; the bits above `nbits` are 0. -/
def tableWord (nbits w : Nat) : InstrWord := BitVec.ofNat 32 (w % 2 ^ nbits)

/-- The instruction the decoder reads from a table word laid out in memory order, if it reads one. -/
def decodeTableWord (nbits w : Nat) : Option Instr :=
  match decodeBytes (bytesOfWord (tableWord nbits w)) with
  | .ok (i, _) => some i
  | .error _ => none

end Sys2Proof
end

