-- ==== Sys2Proof/Machine/Fetch.lean ====
section
/-! DEFINITION. FU, the fetch unit, and what a step finds before it executes (40_fetch_unit.md). -/

namespace Sys2Proof.Machine

/-- `Fetch()`: one 32-bit load through BUS at the pc; it writes nothing (R120, R123). -/
def fetch (s : State) : Except FaultRecord InstrWord :=
  match busLoad s s.pc 32 with
  | .ok r => .ok (r.setWidth 32)
  | .error f => .error f

/-- What a step does with the state it starts in (R127). -/
inductive Cycle where
  /-- No step is enabled. -/
  | stopped (r : Fault)
  /-- The step raises a fault of the spec, at fetch or at decode. -/
  | raises (f : FaultRecord)
  /-- The step executes a decoded instruction. -/
  | executes (i : Instr)
deriving DecidableEq, Repr

/-- The decoding part of `Execute(word)` (R128; 30_encoding.md R97). -/
def decodeCycle (w : InstrWord) : Cycle :=
  match decodeWord w with
  | .instr i => .executes i
  | .illegal v => .raises (illegalFault v)

/-- Fetch comes first: if it faults, the word is not decoded (60_exceptions.md R195). A step is enabled only while
Running (R127, R131). -/
def cycle (s : State) : Cycle :=
  match s.run with
  | .halted => .stopped .halted
  | .running =>
    match fetch s with
    | .error f => .raises f
    | .ok w => decodeCycle w

/-- The state with a word stored in the four bytes at the pc; unchanged if they do not lie in the bank (log 16). -/
def placeWord (s : State) (w : InstrWord) : State :=
  match busStore s s.pc 32 (w.setWidth 64) with
  | .ok t => t
  | .error _ => s

end Sys2Proof.Machine
end

