-- ==== Sys2Proof/Machine/Step.lean ====
section
/-! DEFINITION. One fetch-execute cycle (40_fetch_unit.md R127). -/

namespace Sys2Proof.Machine

/-- `Step()` (R127): a fault of the spec is a next state with the fault latched; a Halted CORE has no step. -/
def step (s : State) : Host.Outcome State Fault Refusal :=
  match cycle s with
  | .stopped r => .fault r
  | .raises f => .next (takeFault s f)
  | .executes i => exec i s

/-- `s` with a table word stored where the next fetch reads: the four bytes at the pc (log 16). -/
def State.withFetchWord (s : State) (nbits w : Nat) : State := placeWord s (tableWord nbits w)

end Sys2Proof.Machine
end

