-- ==== Sys2Proof/Machine/FaultUnit.lean ====
section
/-! DEFINITION. FLT: cause codes, the fatal predicate and the fault ports (60_exceptions.md). -/

namespace Sys2Proof.Machine

/-- `code(K)` (R190, R192). The numbers are the spec's from general knowledge (PRESUMED, log 4). -/
def faultCode : FaultKind → Nat
  | .instructionAddressMisaligned => 0
  | .instructionAccessFault => 1
  | .illegalInstruction => 2
  | .breakpoint => 3
  | .loadAddressMisaligned => 4
  | .loadAccessFault => 5
  | .storeAMOAddressMisaligned => 6
  | .storeAMOAccessFault => 7
  | .environmentCallFromUMode => 8
  | .environmentCallFromSMode => 9
  | .environmentCallFromMMode => 11
  | .instructionPageFault => 12
  | .loadPageFault => 13
  | .storeAMOPageFault => 15

/-- IS_FATAL of a CORE (R193): true for two kinds, the construction's parameter for the twelve others. No rule of
execution reads it. -/
def isFatal (p : Params) : FaultKind → Bool
  | .illegalInstruction => true
  | .instructionAccessFault => true
  | .instructionAddressMisaligned => p.fatal.instructionAddressMisaligned
  | .breakpoint => p.fatal.breakpoint
  | .loadAddressMisaligned => p.fatal.loadAddressMisaligned
  | .loadAccessFault => p.fatal.loadAccessFault
  | .storeAMOAddressMisaligned => p.fatal.storeAMOAddressMisaligned
  | .storeAMOAccessFault => p.fatal.storeAMOAccessFault
  | .environmentCallFromUMode => p.fatal.environmentCallFromUMode
  | .environmentCallFromSMode => p.fatal.environmentCallFromSMode
  | .environmentCallFromMMode => p.fatal.environmentCallFromMMode
  | .instructionPageFault => p.fatal.instructionPageFault
  | .loadPageFault => p.fatal.loadPageFault
  | .storeAMOPageFault => p.fatal.storeAMOPageFault

/-- What the FLT ports show of a latched fault (R209). -/
structure FltShown where
  kind : FaultKind
  value : Word
  code : Nat
  fatal : Bool
deriving DecidableEq, Repr

/-- The FLT ports (R209): `shown` is present exactly when `flt_valid` is 1. -/
structure FltOut where
  halted : Bool
  shown : Option FltShown
deriving DecidableEq, Repr

/-- What the ports of a CORE with parameters `p` show of a fault. -/
def showFault (p : Params) (f : FaultRecord) : FltShown :=
  { kind := f.kind, value := f.value, code := faultCode f.kind, fatal := isFatal p f.kind }

/-- The FLT ports of a state (R209). -/
def fltOut (s : State) : FltOut :=
  { halted := decide (s.run = .halted), shown := s.flt.map (showFault s.cfg) }

end Sys2Proof.Machine
end

