-- ==== Sys2Proof/Machine/Lsu.lean ====
section
/-! DEFINITION. LSU, the load/store unit: a pass-through to BUS (42_load_store_unit.md). No instruction uses it
(R172); the host does (R175). -/

namespace Sys2Proof.Machine

/-- `LsuLoad(addr, size_in_bits)` (R170). -/
def lsuLoad (s : State) (addr : Word) (size : Nat) : Except FaultRecord Word := busLoad s addr size

/-- `LsuStore(addr, size_in_bits, value)` (R171). -/
def lsuStore (s : State) (addr : Word) (size : Nat) (v : Word) : Except FaultRecord State := busStore s addr size v

end Sys2Proof.Machine
end

