-- ==== Sys2Proof/Machine/HostPort.lean ====
section
/-! DEFINITION. What the host can do to a CORE: construct it, step it, inspect it, and use the LSU between steps
(70_reset_and_hazards.md R230 to R236). -/

namespace Sys2Proof.Machine

/-- `Reset(img)` for given parameters, IS_FATAL among them (R231, R236), or the refusal of R8 or R232. -/
def construct (p : Params) (img : List Byte) : Except Refusal State :=
  if p.legal = false then .error .badParameters
  else if p.memCapacity < img.length then .error .imageTooLong
  else .ok (State.resetWith p (imageCells 0 img))

/-- The register names in index order (10_state.md R24). -/
def regNames : List String :=
  ["zero", "ra", "sp", "gp", "tp", "t0", "t1", "t2", "s0", "s1", "a0", "a1", "a2", "a3", "a4", "a5",
   "a6", "a7", "s2", "s3", "s4", "s5", "s6", "s7", "s8", "s9", "s10", "s11", "t3", "t4", "t5", "t6"]

/-- The host's moves on a constructed CORE (R236). -/
inductive HostRequest where
  | step
  | readReg (i : RegIx)
  | readPc
  | readNames
  | readFault
  | lsuLoad (addr : Word) (size : Nat)
  | lsuStore (addr : Word) (size : Nat) (v : Word)
deriving DecidableEq, Repr

/-- What the CORE returns (R236). -/
inductive HostReply where
  /-- The step, or the LSU store, was done. -/
  | done
  /-- No step is enabled: the CORE is Halted (40_fetch_unit.md R131). -/
  | noStep (r : Fault)
  /-- The step met an instruction with no meaning; no instruction answers so. -/
  | refused (r : Refusal)
  | value (v : Word)
  | names (l : List String)
  | ports (f : FltOut)
  /-- An LSU request faulted; the fault goes to the host only (42_load_store_unit.md R174, R175). -/
  | faulted (f : FaultRecord)
deriving DecidableEq, Repr

/-- One request, served between steps: the reply and the state after it (R236). -/
def serve (r : HostRequest) (s : State) : HostReply × State :=
  match r with
  | .step =>
    match Sys2Proof.Machine.step s with
    | .next t => (.done, t)
    | .fault f => (.noStep f, s)
    | .refused q => (.refused q, s)
  | .readReg i => (.value (Sys2Proof.Machine.readReg s i), s)
  | .readPc => (.value s.pc, s)
  | .readNames => (.names regNames, s)
  | .readFault => (.ports (fltOut s), s)
  | .lsuLoad a n =>
    match Sys2Proof.Machine.lsuLoad s a n with
    | .ok v => (.value v, s)
    | .error f => (.faulted f, s)
  | .lsuStore a n v =>
    match Sys2Proof.Machine.lsuStore s a n v with
    | .ok t => (.done, t)
    | .error f => (.faulted f, s)

end Sys2Proof.Machine
end

