-- ==== Sys2Proof/Machine/Ports.lean ====
section
/-! DEFINITION. The port tables of RF, ALU, BUS, FU and LSU as functions of one step's values (10_state.md R23,
20_memory.md R67, 40_fetch_unit.md R126, 41_integer_alu.md R150, 42_load_store_unit.md R175; log 11). The ID and FLT
ports are `idOut` and `fltOut`. -/

namespace Sys2Proof.Machine

/-- RF's inputs (R23). -/
structure RfIn where
  ra1 : RegIx
  ra2 : RegIx
  we : Bool
  wa : RegIx
  wd : Word
deriving DecidableEq, Repr

/-- RF's outputs (R23). -/
structure RfOut where
  rd1 : Word
  rd2 : Word
deriving DecidableEq, Repr

/-- RF's read ports (R23). -/
def rfRead (s : State) (ra1 ra2 : RegIx) : RfOut := { rd1 := readReg s ra1, rd2 := readReg s ra2 }

/-- One step at the RF ports: both reads give the values before the write (R23). -/
def rfCycle (s : State) (q : RfIn) : RfOut × State :=
  (rfRead s q.ra1 q.ra2, if q.we then writeReg s q.wa q.wd else s)

/-- RF's inputs in a step that executes `w` with `y` on `rf_wd`: ID drives the addresses, and `rf_we` is 1 only for
ADDI and ADD (R23). No rule gives `rf_wa` and `rf_wd` while `rf_we` is 0; here `rf_wa` is then `id_rd` and `rf_wd` is
whatever `y` is (DESIGN CHOICE, log 11). -/
def rfInOf (w : InstrWord) (y : Word) : RfIn :=
  { ra1 := (idOut w).rs1, ra2 := (idOut w).rs2, we := decide ((idOut w).cls ≠ .illegal), wa := (idOut w).rd, wd := y }

/-- `alu_b` of a step that executes `w`, RF reading `rf`: `id_imm` for ADDI, `rf_rd2` for ADD (R150). R150 gives it for
no other word; it is then absent (DESIGN CHOICE, log 11). -/
def aluB (w : InstrWord) (rf : RfOut) : Option Word :=
  match (idOut w).cls with
  | .addi => some (idOut w).imm
  | .add => some rf.rd2
  | .illegal => none

/-- `alu_y` of a step that executes `w`: `alu_add(rf_rd1, alu_b)` for ADDI and ADD (R150), absent where `alu_b` is
(DESIGN CHOICE, log 11). -/
def aluOutOf (w : InstrWord) (rf : RfOut) : Option Word := (aluB w rf).map (aluAdd rf.rd1)

/-- The request ports of BUS, and of LSU, whose ports map one to one onto them (R67, R175). -/
structure BusIn where
  req : Bool
  we : Bool
  addr : Word
  size : Nat
  wdata : Word
deriving DecidableEq, Repr

/-- The reply ports (R67): `rdata` is present for a load that succeeds and absent otherwise, where no rule gives it
(DESIGN CHOICE, log 11); `fault` (kind and value) is present when the request faulted. -/
structure BusOut where
  rdata : Option Word
  fault : Option FaultRecord
deriving DecidableEq, Repr

/-- One request at the BUS ports; it completes in the step that issues it (R67). -/
def busCycle (s : State) (q : BusIn) : BusOut × State :=
  match q.req, q.we with
  | false, _ => ({ rdata := none, fault := none }, s)
  | true, false =>
    match busLoad s q.addr q.size with
    | .ok v => ({ rdata := some v, fault := none }, s)
    | .error f => ({ rdata := none, fault := some f }, s)
  | true, true =>
    match busStore s q.addr q.size q.wdata with
    | .ok t => ({ rdata := none, fault := none }, t)
    | .error f => ({ rdata := none, fault := some f }, s)

/-- One request at the LSU ports (R175). -/
def lsuCycle (s : State) (q : BusIn) : BusOut × State := busCycle s q

/-- FU's inputs (R126). -/
structure FuIn where
  req : Bool
  pc : Word
deriving DecidableEq, Repr

/-- `fu_req` is asserted while Running, and `fu_pc` is the pc (R126). -/
def fuIn (s : State) : FuIn := { req := decide (s.run = .running), pc := s.pc }

/-- How FU drives BUS (R126): a 32-bit load at `fu_pc` when a fetch is requested. No rule gives `bus_wdata` in a load;
here it is 0 (DESIGN CHOICE, log 11), and no load reads it. -/
def fuDrives (q : FuIn) : BusIn := { req := q.req, we := false, addr := q.pc, size := 32, wdata := 0 }

/-- FU's outputs (R126): the word of a fetch that succeeds, the fault (kind and value) of one that does not, and
neither without a request (DESIGN CHOICE, log 11). -/
structure FuOut where
  word : Option InstrWord
  fault : Option FaultRecord
deriving DecidableEq, Repr

/-- One request at FU's ports: the low 32 bits of the bus value, or the bus fault unchanged (R121, R122, R126). -/
def fuCycle (s : State) (q : FuIn) : FuOut :=
  { word := (busCycle s (fuDrives q)).1.rdata.map (fun r => r.setWidth 32)
    fault := (busCycle s (fuDrives q)).1.fault }

/-- FU's outputs in a state, at the request the state makes (R126). -/
def fuOut (s : State) : FuOut := fuCycle s (fuIn s)

end Sys2Proof.Machine
end

