-- ==== Sys2Proof/Safety.lean ====
section
/-! DEFINITION. What counts as a good state of the CORE, and the runs claims speak of. -/

namespace Sys2Proof

/-- The bank holds all of the `n` bytes from address `addr` on (the net condition of 20_memory.md R63). -/
abbrev Params.covers (p : Params) (addr : Word) (n : Nat) : Prop :=
  p.memBase.toNat ≤ addr.toNat ∧ addr.toNat - p.memBase.toNat + n ≤ p.memCapacity

/-- The bank is the whole address space, the one configuration in which a run need not halt (40_fetch_unit.md R134). -/
abbrev Params.wholeSpace (p : Params) : Prop := p.memBase = 0#64 ∧ p.memCapacity = 2 ^ 64

end Sys2Proof

namespace Sys2Proof.Machine

/-- Every listed byte lies in the bank (20_memory.md R51). -/
abbrev Memory.within (m : Memory) (capacity : Nat) : Prop := ∀ c ∈ m, c.1 < capacity

/-- The latch holds a fault exactly when the CORE is Halted (10_state.md R27, R28). -/
abbrev State.latchAgrees (s : State) : Prop := s.flt.isSome = decide (s.run = .halted)

/-- The invariant of a CORE: legal parameters (00_scope.md R8), a canonical bank with nothing outside it
(20_memory.md R51), cell 0 of the register file zero (10_state.md R21), and an agreeing latch (R27). -/
abbrev State.Inv (s : State) : Prop :=
  s.cfg.legal = true ∧ Memory.wf s.mem ∧ Memory.within s.mem s.cfg.memCapacity ∧ s.regs[0] = 0#64 ∧ s.latchAgrees

/-- The byte `k` places after the pc, as the fetch unit would find it (40_fetch_unit.md R121). -/
def byteAtPc (s : State) (k : Nat) : Byte := Memory.get s.mem (s.pc.toNat - s.cfg.memBase.toNat + k)

/-- The destination register of an instruction (41_integer_alu.md R154). -/
def destOf : Instr → RegIx
  | .addi rd _ _ => rd
  | .add rd _ _ => rd

/-- The host serves a list of requests in order (70_reset_and_hazards.md R236). -/
def serveAll : List HostRequest → State → State
  | [], s => s
  | r :: rs, s => serveAll rs (serve r s).2

/-- `n` host steps: a Halted CORE stays as it is (40_fetch_unit.md R131). -/
def stepN : Nat → State → State
  | 0, s => s
  | n + 1, s => stepN n (serve .step s).2

/-- The byte at bank index `a` after one request, given the byte before: that of a served store that targets it,
else the old one (20_memory.md R58, R59). -/
def byteAfter (p : Params) (a : Nat) (b : Byte) : HostRequest → Byte
  | .lsuStore addr size v =>
    if legalSize size = true ∧ p.covers addr (size / 8) ∧ addr.toNat - p.memBase.toNat ≤ a ∧
        a < addr.toNat - p.memBase.toNat + size / 8 then
      (v >>> (8 * (a - (addr.toNat - p.memBase.toNat)))).setWidth 8
    else b
  | .step => b
  | .readReg _ => b
  | .readPc => b
  | .readNames => b
  | .readFault => b
  | .lsuLoad _ _ => b

/-- The last byte written to index `a` in request order, or `b` if none is (20_memory.md R74). -/
def lastByte (p : Params) (a : Nat) (b : Byte) (rs : List HostRequest) : Byte := rs.foldl (byteAfter p a) b

end Sys2Proof.Machine
end

