-- ==== Sys2Proof/Certificates/Slice0/Obligations.lean ====
section
/-! DEFINITION. The statements for the provers. -/

open Sys2Proof Sys2Proof.Machine

/-! ## The step and the instructions -/

/-- When the four bytes at the pc lie in the bank and decode to an instruction, a Running CORE's step is `exec` of it,
with nothing added around it, and the instruction is well-formed (40_fetch_unit.md R127, R128). -/
def Obligations.StepIsExecOfTheFetchedInstruction : Prop :=
  ∀ (s : State) (i : Instr) (rest : List Byte), s.run = .running → s.cfg.covers s.pc 4 →
    decodeBytes [byteAtPc s 0, byteAtPc s 1, byteAtPc s 2, byteAtPc s 3] = .ok (i, rest) →
    step s = exec i s ∧ i.wf = true

/-- The transition of the execution loop (R127): a fetch fault or a fault of Execute latches the fault and halts; a
decoded instruction executes, the pc takes the next pc and the CORE stays Running. -/
def Obligations.StepFollowsTheExecutionLoop : Prop :=
  ∀ s : State, s.run = .running →
    (∀ f, fetch s = .error f → step s = .next { s with flt := some f, run := .halted }) ∧
    ∀ w, fetch s = .ok w →
      (∀ v, decodeWord w = .illegal v →
        step s = .next { s with flt := some { kind := .illegalInstruction, value := v }, run := .halted }) ∧
      ∀ i, decodeWord w = .instr i →
        ∃ t, exec i s = .next t ∧ step s = .next t ∧ t.pc = s.pc + 4 ∧ t.run = .running ∧ t.flt = s.flt

/-- ADDI (R151): every word of opcode 0x13 is an ADDI of the sign-extended word[31:20], whatever funct3 holds, and an
ADDI always completes: rd takes the sum modulo 2^64 (x0 stays 0), the next pc is pc + 4, all else is unchanged. -/
def Obligations.AddiSetsRdToSumWithImmediate : Prop :=
  (∀ w : InstrWord, w.toNat % 128 = 0x13 →
    ∃ rd rs1, decodeWord w = .instr (.addi rd rs1 ((w.extractLsb' 20 12).signExtend 64))) ∧
  ∀ (rd rs1 : RegIx) (imm : Word) (s : State), ∃ t, exec (.addi rd rs1 imm) s = .next t ∧
    (∀ r, readReg t r = if r = 0 then 0
      else if r = rd then BitVec.ofNat 64 ((readReg s rs1).toNat + imm.toNat) else readReg s r) ∧
    t.pc = s.pc + 4 ∧ t.run = s.run ∧ t.flt = s.flt ∧ t.mem = s.mem ∧ t.cfg = s.cfg

/-- ADD (R152): every word of opcode 0x33 is an ADD, whatever funct3 and funct7 hold, and an ADD always completes: rd
takes the sum modulo 2^64 (x0 stays 0), the next pc is pc + 4, all else is unchanged. -/
def Obligations.AddSetsRdToSumOfRegisters : Prop :=
  (∀ w : InstrWord, w.toNat % 128 = 0x33 → ∃ rd rs1 rs2, decodeWord w = .instr (.add rd rs1 rs2)) ∧
  ∀ (rd rs1 rs2 : RegIx) (s : State), ∃ t, exec (.add rd rs1 rs2) s = .next t ∧
    (∀ r, readReg t r = if r = 0 then 0
      else if r = rd then BitVec.ofNat 64 ((readReg s rs1).toNat + (readReg s rs2).toNat) else readReg s r) ∧
    t.pc = s.pc + 4 ∧ t.run = s.run ∧ t.flt = s.flt ∧ t.mem = s.mem ∧ t.cfg = s.cfg

/-- The frame of ADDI and ADD (R154): every one completes, and changes x[rd] (when rd is not 0) and the pc alone. -/
def Obligations.AluInstructionsChangeOnlyRdAndPc : Prop :=
  ∀ (i : Instr) (s : State), ∃ t, exec i s = .next t ∧
    (∀ r, r ≠ destOf i ∨ r = 0 → readReg t r = readReg s r) ∧
    (∀ a, Memory.get t.mem a = Memory.get s.mem a) ∧
    (∀ addr size, busLoad t addr size = busLoad s addr size) ∧
    t.run = s.run ∧ t.flt = s.flt ∧ t.cfg = s.cfg

/-- An ADDI or ADD with rd = x0, a hint in RISC-V, changes nothing but the pc (30_encoding.md R101, derived there). -/
def Obligations.ResultToX0ChangesOnlyPc : Prop :=
  ∀ (rs1 rs2 : RegIx) (imm : Word) (s : State),
    exec (.addi 0 rs1 imm) s = .next { s with pc := s.pc + 4 } ∧
    exec (.add 0 rs1 rs2) s = .next { s with pc := s.pc + 4 }

/-- Sources are read before the destination is written (41_integer_alu.md R153, derived there): with rd equal to a
source the sum uses the old value, and rd = rs1 = rs2 doubles in place. -/
def Obligations.SourcesAreReadBeforeRdIsWritten : Prop :=
  ∀ (r q : RegIx) (imm : Word) (s : State), r ≠ 0 →
    (∃ t, exec (.addi r r imm) s = .next t ∧ readReg t r = readReg s r + imm) ∧
    (∃ t, exec (.add r r q) s = .next t ∧ readReg t r = readReg s r + readReg s q) ∧
    (∃ t, exec (.add r q r) s = .next t ∧ readReg t r = readReg s q + readReg s r) ∧
    ∃ t, exec (.add r r r) s = .next t ∧ (readReg t r).toNat = 2 * (readReg s r).toNat % 2 ^ 64

/-- x0 (10_state.md R21): it reads as 0 in every state; a write to it is dropped and a write to another register is
seen there only; after any host requests, inspection shows 0 and the cell behind x0 is what it was. -/
def Obligations.X0AlwaysReadsZero : Prop :=
  (∀ s : State, readReg s 0 = 0 ∧ ∀ v, writeReg s 0 v = s) ∧
  (∀ (s : State) (i r : RegIx) (v : Word), i ≠ 0 →
    readReg (writeReg s i v) r = if r = i then v else readReg s r) ∧
  ∀ (rs : List HostRequest) (s : State),
    (serve (.readReg 0) (serveAll rs s)).1 = .value 0 ∧ (serveAll rs s).regs[0] = s.regs[0]

/-- The adder (41_integer_alu.md R150): modulo 2^64 in the unsigned reading, and the same bits in the signed one. -/
def Obligations.AluAddsModulo64Bits : Prop :=
  ∀ a b : Word, (aluAdd a b).toNat = (a.toNat + b.toNat) % 2 ^ 64 ∧
    aluAdd a b = BitVec.ofInt 64 (a.toInt + b.toInt)

/-- The data path at the ports: ID, RF and ALU (10_state.md R23, 30_encoding.md R99, 41_integer_alu.md R150) produce the
state `exec` gives for a decoded word, an illegal word has no ALU result and drives no register write, and RF's outputs
are the values before the write. That the ALU's output is absent for an illegal word is the model's choice (log 11). -/
def Obligations.PortDataPathIsExec : Prop :=
  ∀ (w : InstrWord) (s : State),
    (∀ i, decodeWord w = .instr i →
      ∃ y, aluOutOf w (rfRead s (idOut w).rs1 (idOut w).rs2) = some y ∧
        exec i s = .next (setPc (rfCycle s (rfInOf w y)).2 (s.pc + 4))) ∧
    (∀ v y rf, decodeWord w = .illegal v → aluOutOf w rf = none ∧ (rfCycle s (rfInOf w y)).2 = s) ∧
    ∀ q : RfIn, (rfCycle s q).1 = { rd1 := readReg s q.ra1, rd2 := readReg s q.ra2 }

/-! ## Decoding and encoding -/

/-- Decode (30_encoding.md R96) with every field at its place as a number. The places of rd, rs1 and rs2 are the spec's
from general knowledge (R91; log 3), so this is derived. -/
def Obligations.DecodeReadsEachFieldAtItsPlace : Prop :=
  ∀ w : InstrWord,
    decodeWord w =
      if w.toNat % 2 ^ 7 = 0x13 then
        .instr (.addi (BitVec.ofNat 5 (w.toNat / 2 ^ 7)) (BitVec.ofNat 5 (w.toNat / 2 ^ 15))
          (BitVec.ofInt 64 ((w.toNat / 2 ^ 20 : Nat) - if 2 ^ 31 ≤ w.toNat then (4096 : Int) else 0)))
      else if w.toNat % 2 ^ 7 = 0x33 then
        .instr (.add (BitVec.ofNat 5 (w.toNat / 2 ^ 7)) (BitVec.ofNat 5 (w.toNat / 2 ^ 15))
          (BitVec.ofNat 5 (w.toNat / 2 ^ 20)))
      else .illegal (BitVec.ofNat 64 (w.toNat % 2 ^ 7))

/-- The ID ports (30_encoding.md R91, R99): the six fields side by side are the word, so none of them overlaps another
and no bit is left out; the immediate is the sign-extended funct7 and rs2, and the class follows the opcode. The places
of rd, funct3, rs1, rs2 and funct7 are from general knowledge (R91; PRESUMED, log 3). -/
def Obligations.IdPortsTileTheWord : Prop :=
  ∀ w : InstrWord,
    (idOut w).funct7 ++ (idOut w).rs2 ++ (idOut w).rs1 ++ (idOut w).funct3 ++ (idOut w).rd ++ (idOut w).opcode = w ∧
    (idOut w).imm = ((idOut w).funct7 ++ (idOut w).rs2).signExtend 64 ∧
    ((idOut w).cls = .addi ↔ (idOut w).opcode = 0x13) ∧ ((idOut w).cls = .add ↔ (idOut w).opcode = 0x33) ∧
    ((idOut w).cls = .illegal ↔ (idOut w).opcode ≠ 0x13 ∧ (idOut w).opcode ≠ 0x33)

/-- Every opcode but 0x13 and 0x33 is illegal (R97): the step halts with IllegalInstruction, its value the
zero-extended 7-bit opcode, and nothing else changes. -/
def Obligations.OtherOpcodesRaiseIllegalInstruction : Prop :=
  ∀ (s : State) (w : InstrWord), s.run = .running → fetch s = .ok w →
    w.toNat % 128 ≠ 0x13 → w.toNat % 128 ≠ 0x33 →
    step s = .next { s with
      flt := some { kind := .illegalInstruction, value := BitVec.ofNat 64 (w.toNat % 128) }, run := .halted }

/-- The bits the decoder does not examine change nothing (R98; places from general knowledge, log 3): bits 14:12 under
0x13, bits 31:25 and 14:12 under 0x33, and all but the opcode under any other. -/
def Obligations.UnexaminedBitsDoNotMatter : Prop :=
  ∀ w m : InstrWord,
    (w.toNat % 128 = 0x13 → decodeWord (w ^^^ (m &&& 0x00007000)) = decodeWord w) ∧
    (w.toNat % 128 = 0x33 → decodeWord (w ^^^ (m &&& 0xFE007000)) = decodeWord w) ∧
    (w.toNat % 128 ≠ 0x13 → w.toNat % 128 ≠ 0x33 → decodeWord (w ^^^ (m &&& 0xFFFFFF80)) = decodeWord w)

/-- A word whose low two bits are not 0b11 is illegal (R102, derived there), all-zero words among them, and so is the
all-ones word (R100). -/
def Obligations.CompressedWordsAreIllegal : Prop :=
  (∀ w : InstrWord, w.toNat % 4 ≠ 3 → decodeWord w = .illegal (BitVec.ofNat 64 (w.toNat % 128))) ∧
  decodeWord 0xFFFFFFFF = .illegal 0x7F

/-- The I-type immediate (R94): the sign-extended word[31:20], the arithmetic right shift of the word by 20 (an
inference the rule marks), between -2048 and 2047. -/
def Obligations.ImmediateIsTheArithmeticShift : Prop :=
  ∀ w : InstrWord, (immI w).toInt = w.toInt / 2 ^ 20 ∧ immI w = (w.sshiftRight 20).signExtend 64 ∧
    -2048 ≤ (immI w).toInt ∧ (immI w).toInt ≤ 2047

/-- Decoding an encoded well-formed instruction gives it back: as a word, as bytes with any bytes behind them, and
through the opcode table's numbering (R96, R103). -/
def Obligations.DecodeOfEncodeIsTheInstruction : Prop :=
  ∀ (i : Instr) (rest : List Byte), i.wf = true →
    decodeWord (encode i) = .instr i ∧ decodeBytes (encodeBytes i ++ rest) = .ok (i, rest) ∧
    decodeTableWord 32 (encode i).toNat = some i

/-- What the decoder answers is well-formed (30_encoding.md R94, R96), and encoding it gives the word with its
unexamined bits cleared. That they come out cleared rests on the encoder's funct3 = 0 and funct7 = 0 (R103; PRESUMED,
log 9), and the places of the fields are from general knowledge (R91; PRESUMED, log 3). -/
def Obligations.EncodeOfDecodeKeepsExaminedBits : Prop :=
  ∀ (w : InstrWord) (i : Instr), decodeWord w = .instr i → i.wf = true ∧ encode i = w &&& examinedMask w

/-- Words written out from the spec's encodings decode to what they stand for (30_encoding.md R98, R103 and, for the
last, R100; 95_test_vectors.md sections 2.1 and 2.4). The register places are from general knowledge (R91; PRESUMED,
log 3). -/
def Obligations.WordsOfTheSpecDecode : Prop :=
  decodeWord 0x02A00F93 = .instr (.addi 31 0 42) ∧
  decodeWord 0x00A00113 = .instr (.addi 2 0 10) ∧
  decodeWord 0x80000293 = .instr (.addi 5 0 0xFFFFFFFFFFFFF800) ∧
  decodeWord 0x003100B3 = .instr (.add 1 2 3) ∧
  decodeWord 0x403100B3 = .instr (.add 1 2 3) ∧
  decodeWord 0x0FF37293 = .instr (.addi 5 6 0xFF) ∧
  decodeWord 0x00000073 = .illegal 0x73

/-! ## The fetch unit -/

/-- Fetch inside the bank, at any alignment, gives the little-endian word of the four bytes at the pc
(40_fetch_unit.md R121, R124), and outside it the fault LoadAccessFault(pc) (R125). -/
def Obligations.FetchReadsFourBytesExactlyInsideTheBank : Prop :=
  ∀ s : State,
    (s.cfg.covers s.pc 4 →
      fetch s = .ok (byteAtPc s 3 ++ byteAtPc s 2 ++ byteAtPc s 1 ++ byteAtPc s 0)) ∧
    (¬ s.cfg.covers s.pc 4 → fetch s = .error { kind := .loadAccessFault, value := s.pc })

/-- A fetch fault is the bus fault of a 32-bit load at the pc, unchanged: LoadAccessFault with value pc, never
InstructionAccessFault (R122). -/
def Obligations.FetchFaultIsTheBusFault : Prop :=
  ∀ s : State,
    (∀ f, fetch s = .error f ↔ busLoad s s.pc 32 = .error f) ∧
    ∀ f, fetch s = .error f → f.kind = .loadAccessFault ∧ f.value = s.pc

/-- FU's ports (40_fetch_unit.md R126): a fetch is requested exactly while Running; a request drives BUS with a 32-bit
load at the pc, and shows the word of a fetch that succeeds or the fault of one that does not. That the word port is
absent at a fault, that both are absent without a request, and that `bus_wdata` (0 here) stands at some value a load
never reads, are the model's choices (log 11). -/
def Obligations.FetchPortsShowTheFetch : Prop :=
  ∀ s : State,
    ((fuIn s).req = true ↔ s.run = .running) ∧ (fuIn s).pc = s.pc ∧
    (fuDrives (fuIn s)).req = (fuIn s).req ∧ (fuDrives (fuIn s)).we = false ∧
    (fuDrives (fuIn s)).addr = s.pc ∧ (fuDrives (fuIn s)).size = 32 ∧
    (∀ v, busCycle s { fuDrives (fuIn s) with wdata := v } = busCycle s (fuDrives (fuIn s))) ∧
    (s.run = .running →
      (∀ w, fetch s = .ok w ↔ (fuOut s).word = some w) ∧
      (∀ f, fetch s = .error f ↔ (fuOut s).fault = some f) ∧
      ((fuOut s).word.isSome ↔ (fuOut s).fault = none)) ∧
    (s.run = .halted → fuOut s = { word := none, fault := none })

/-- A step's outcome depends on the memory through the fetched word alone: two banks with the same four bytes at the
pc give the same step, each keeping its bank (R120, R121; 42_load_store_unit.md R172). -/
def Obligations.StepDependsOnTheFetchedWordOnly : Prop :=
  ∀ (s t : State) (m : Memory), s.cfg.covers s.pc 4 →
    (∀ k < 4, byteAtPc (s.setMem m) k = byteAtPc s k) → step s = .next t →
    step (s.setMem m) = .next (t.setMem m)

/-- The pc is written only by a step that completes without a fault, with pc + 4; a step that faults leaves it
(R130). -/
def Obligations.PcAdvancesByFourOrStaysOnFault : Prop :=
  ∀ s t : State, step s = .next t →
    (t.run = .running ∧ t.flt = s.flt ∧ t.pc = s.pc + 4) ∨ (t.run = .halted ∧ t.flt.isSome ∧ t.pc = s.pc)

/-! ## Memory, BUS and LSU -/

/-- BUS (20_memory.md R61, R62): in range it delegates verbatim to MEM; out of range it raises the access fault of the
direction with the address, whatever the size. -/
def Obligations.BusDelegatesInRangeAndFaultsOutside : Prop :=
  ∀ (s : State) (a v : Word) (size : Nat),
    (s.cfg.memBase.toNat ≤ a.toNat ∧ a.toNat < s.cfg.memBase.toNat + s.cfg.memCapacity →
      busLoad s a size = memLoad s a size ∧ busStore s a size v = memStore s a size v) ∧
    (a.toNat < s.cfg.memBase.toNat ∨ s.cfg.memBase.toNat + s.cfg.memCapacity ≤ a.toNat →
      busLoad s a size = .error { kind := .loadAccessFault, value := a } ∧
      busStore s a size v = .error { kind := .storeAMOAccessFault, value := a })

/-- Every failing read, a fetch among them, raises LoadAccessFault and every failing write StoreAMOAccessFault, each
with the access's address as value (R65, R66). -/
def Obligations.AccessFaultsNameDirectionAndAddress : Prop :=
  ∀ (s : State) (a v : Word) (size : Nat) (f : FaultRecord),
    (busLoad s a size = .error f → f = { kind := .loadAccessFault, value := a }) ∧
    (lsuLoad s a size = .error f → f = { kind := .loadAccessFault, value := a }) ∧
    (fetch s = .error f → f = { kind := .loadAccessFault, value := s.pc }) ∧
    (busStore s a size v = .error f → f = { kind := .storeAMOAccessFault, value := a }) ∧
    (lsuStore s a size v = .error f → f = { kind := .storeAMOAccessFault, value := a })

/-- The net condition of R63 and R64 (derived there): an access is served exactly when its size is 8, 16, 32 or 64 bits
and all its bytes lie in the bank; alignment plays no part (R70). -/
def Obligations.AccessIsServedExactlyInsideTheBank : Prop :=
  ∀ (s : State) (a v : Word) (size : Nat),
    ((∃ r, busLoad s a size = .ok r) ↔
      (size = 8 ∨ size = 16 ∨ size = 32 ∨ size = 64) ∧ s.cfg.covers a (size / 8)) ∧
    ((∃ t, busStore s a size v = .ok t) ↔
      (size = 8 ∨ size = 16 ∨ size = 32 ∨ size = 64) ∧ s.cfg.covers a (size / 8))

/-- A size other than 8, 16, 32 and 64 bits faults at MEM and through BUS, whatever the address (R57; the fault's value is
the spec's decision D5, log 14). -/
def Obligations.OtherSizesFault : Prop :=
  ∀ (s : State) (a v : Word) (size : Nat), size ≠ 8 → size ≠ 16 → size ≠ 32 → size ≠ 64 →
    memLoad s a size = .error { kind := .loadAccessFault, value := a } ∧
    busLoad s a size = .error { kind := .loadAccessFault, value := a } ∧
    memStore s a size v = .error { kind := .storeAMOAccessFault, value := a } ∧
    busStore s a size v = .error { kind := .storeAMOAccessFault, value := a }

/-- Side effects of an access at the BUS ports (R59): a read changes no state; a write that succeeds changes exactly the
targeted bytes, to the value's bytes, and nothing else of the state; an access that faults changes nothing, and every
load, store and fetch at an address outside the bank faults. -/
def Obligations.AccessesTouchExactlyTheTargetedBytes : Prop :=
  ∀ (s : State) (q : BusIn), Memory.wf s.mem →
    (q.we = false → (busCycle s q).2 = s) ∧
    ((busCycle s q).1.fault ≠ none → (busCycle s q).2 = s) ∧
    (q.req = true →
      q.addr.toNat < s.cfg.memBase.toNat ∨ s.cfg.memBase.toNat + s.cfg.memCapacity ≤ q.addr.toNat →
      (busCycle s q).1.fault ≠ none) ∧
    (s.pc.toNat < s.cfg.memBase.toNat ∨ s.cfg.memBase.toNat + s.cfg.memCapacity ≤ s.pc.toNat →
      fetch s = .error { kind := .loadAccessFault, value := s.pc }) ∧
    (q.req = true → q.we = true → (busCycle s q).1.fault = none →
      (busCycle s q).2 = { s with mem := (busCycle s q).2.mem } ∧
      ∀ a, Memory.get (busCycle s q).2.mem a =
        if q.addr.toNat - s.cfg.memBase.toNat ≤ a ∧ a < q.addr.toNat - s.cfg.memBase.toNat + q.size / 8
        then (q.wdata >>> (8 * (a - (q.addr.toNat - s.cfg.memBase.toNat)))).setWidth 8
        else Memory.get s.mem a)

/-- LSU load (42_load_store_unit.md R170): MemReadBits unchanged; it returns the bytes at the address assembled
little-endian, zero-extended, or LoadAccessFault(addr). -/
def Obligations.LsuLoadAssemblesBytesLittleEndian : Prop :=
  ∀ (s : State) (a : Word) (size : Nat),
    lsuLoad s a size = busLoad s a size ∧
    (∀ v, lsuLoad s a size = .ok v →
      v.toNat = ∑ k ∈ Finset.range (size / 8),
        (Memory.get s.mem (a.toNat - s.cfg.memBase.toNat + k)).toNat * 256 ^ k) ∧
    ∀ f, lsuLoad s a size = .error f → f = { kind := .loadAccessFault, value := a }

/-- LSU store (R171): MemWriteBits unchanged; it writes the low bytes of the value little-endian, the value's higher
bits ignored, or raises StoreAMOAccessFault(addr). -/
def Obligations.LsuStoreWritesLowBytesLittleEndian : Prop :=
  ∀ (s : State) (a v : Word) (size : Nat), Memory.wf s.mem →
    lsuStore s a size v = busStore s a size v ∧
    lsuStore s a size v = lsuStore s a size (BitVec.ofNat 64 (v.toNat % 2 ^ size)) ∧
    (∀ t, lsuStore s a size v = .ok t → ∀ k < size / 8,
      (Memory.get t.mem (a.toNat - s.cfg.memBase.toNat + k)).toNat = v.toNat / 256 ^ k % 256) ∧
    ∀ f, lsuStore s a size v = .error f → f = { kind := .storeAMOAccessFault, value := a }

/-- A load after a store of the same address and size returns the stored value's low bits (20_memory.md R56, R58,
R74). -/
def Obligations.LoadAfterStoreReturnsTheValue : Prop :=
  ∀ (s t : State) (a v : Word) (size : Nat), Memory.wf s.mem → lsuStore s a size v = .ok t →
    lsuLoad t a size = .ok (BitVec.ofNat 64 (v.toNat % 2 ^ size))

/-- Mixed widths (R69, derived there): after a 64-bit store, a read of n bytes inside it gives that part of the
value. -/
def Obligations.NarrowLoadsReadPartsOfAWideStore : Prop :=
  ∀ (s t : State) (a v : Word) (j n : Nat), s.cfg.legal = true → Memory.wf s.mem → lsuStore s a 64 v = .ok t →
    (n = 1 ∨ n = 2 ∨ n = 4 ∨ n = 8) → j + n ≤ 8 →
    lsuLoad t (a + BitVec.ofNat 64 j) (8 * n) = .ok (BitVec.ofNat 64 (v.toNat / 2 ^ (8 * j) % 2 ^ (8 * n)))

/-- A repeated store of the same value leaves the same state, and storing back what a load returned changes nothing
(R72, derived there). -/
def Obligations.RepeatedStoreIsIdempotent : Prop :=
  ∀ (s : State) (a v : Word) (size : Nat), Memory.wf s.mem →
    (∀ t, lsuStore s a size v = .ok t → lsuStore t a size v = .ok t) ∧
    (∀ r, lsuLoad s a size = .ok r → lsuStore s a size r = .ok s)

/-- A store at the pc is seen by the next fetch (R77, derived there), and a word placed for the next fetch is the word
that step executes. -/
def Obligations.NextFetchSeesTheStore : Prop :=
  (∀ (s t : State) (v : Word), Memory.wf s.mem → lsuStore s s.pc 32 v = .ok t → fetch t = .ok (v.setWidth 32)) ∧
  ∀ (s : State) (w : InstrWord) (i : Instr), Memory.wf s.mem → s.run = .running → s.cfg.covers s.pc 4 →
    decodeWord w = .instr i →
    step (s.withFetchWord 32 w.toNat) = exec i (s.withFetchWord 32 w.toNat)

/-- Every read of a byte returns the last write to it in request order, or its earlier value if there is none
(R74): over any list of host requests, the list-held bank refines that description. -/
def Obligations.BytesHoldTheLastWriteInOrder : Prop :=
  ∀ (rs : List HostRequest) (s : State) (a : Nat), Memory.wf s.mem →
    Memory.get (serveAll rs s).mem a = lastByte s.cfg a (Memory.get s.mem a) rs

/-- The LSU ports (42_load_store_unit.md R175): they are the BUS ports; a requested store that LSU store serves leaves its
state and shows no fault, and the fault port shows exactly the fault of the requested load or store. A request changes no
register, not the pc, not the run state and not the fault latch, in Running and in Halted (decision D19 of the spec,
log 14). That `lsu_rdata` is present exactly for a load that
answers is the model's choice for a port that carries nothing (log 11). -/
def Obligations.LsuRequestsLeaveTheCoreAlone : Prop :=
  ∀ (s : State) (q : BusIn),
    lsuCycle s q = busCycle s q ∧
    (lsuCycle s q).2 = { s with mem := (lsuCycle s q).2.mem } ∧
    (q.req = true → q.we = true → ∀ t, lsuStore s q.addr q.size q.wdata = .ok t →
      (lsuCycle s q).2 = t ∧ (lsuCycle s q).1.fault = none) ∧
    (∀ f, (lsuCycle s q).1.fault = some f ↔ q.req = true ∧
      (q.we = false ∧ lsuLoad s q.addr q.size = .error f ∨
        q.we = true ∧ lsuStore s q.addr q.size q.wdata = .error f)) ∧
    (q.we = false ∨ q.req = false → (lsuCycle s q).2 = s) ∧
    ∀ v, (lsuCycle s q).1.rdata = some v ↔ q.req = true ∧ q.we = false ∧ lsuLoad s q.addr q.size = .ok v

/-- No step writes the memory bank or the parameters: the only memory access of a program is the fetch (R172). -/
def Obligations.NoStepWritesMemory : Prop :=
  ∀ s t : State, step s = .next t → t.mem = s.mem ∧ t.cfg = s.cfg ∧ ∀ a n, busLoad t a n = busLoad s a n

/-! ## Faults and halting -/

/-- A faulting step changes nothing but the fault latch and the run state (60_exceptions.md R197). -/
def Obligations.FaultingStepChangesOnlyLatchAndRun : Prop :=
  ∀ s t : State, step s = .next t → t.run = .halted →
    ∃ f, t = { s with flt := some f, run := .halted } ∧
      (∀ r, readReg t r = readReg s r) ∧ ∀ a, Memory.get t.mem a = Memory.get s.mem a

/-- Every fault halts, whatever IS_FATAL says of its kind (R198). -/
def Obligations.EveryFaultHaltsFatalOrNot : Prop :=
  ∀ (s : State) (f : FaultRecord) (fatal : Bool), s.run = .running →
    (fetch s = .error f ∨ ∃ w v, fetch s = .ok w ∧ decodeWord w = .illegal v ∧
      f = { kind := .illegalInstruction, value := v }) →
    isFatal s.cfg f.kind = fatal → ∃ t, step s = .next t ∧ t.run = .halted ∧ t.flt = some f

/-- The kinds raised (R194, derived there): a step latches only IllegalInstruction or LoadAccessFault; an LSU request
returns only LoadAccessFault or StoreAMOAccessFault, the last for a store only. -/
def Obligations.OnlyThreeKindsAreRaised : Prop :=
  (∀ (s t : State) (f : FaultRecord), step s = .next t → t.run = .halted → t.flt = some f →
    f.kind = .illegalInstruction ∨ f.kind = .loadAccessFault) ∧
  ∀ (s : State) (q : BusIn) (f : FaultRecord), (lsuCycle s q).1.fault = some f →
    (q.we = false ∧ f.kind = .loadAccessFault) ∨ (q.we = true ∧ f.kind = .storeAMOAccessFault)

/-- Halted is terminal (10_state.md R28): no step occurs in it, and no sequence of host requests leaves it or changes a
register, the pc or the latch. -/
def Obligations.HaltedIsTerminal : Prop :=
  ∀ s : State, s.run = .halted →
    (∀ t, step s ≠ .next t) ∧
    ∀ rs : List HostRequest, (serveAll rs s).run = .halted ∧ (serveAll rs s).regs = s.regs ∧
      (serveAll rs s).pc = s.pc ∧ (serveAll rs s).flt = s.flt

/-- The latch, once it holds a fault, keeps it through any host requests, and is none while the CORE is Running, in every
state where latch and run state agree (R27; the latch is the spec's decision D13). -/
def Obligations.FaultLatchIsNeverCleared : Prop :=
  ∀ (s : State) (rs : List HostRequest), s.latchAgrees →
    (∀ f, s.flt = some f → (serveAll rs s).flt = some f) ∧
    ((serveAll rs s).run = .running → (serveAll rs s).flt = none)

/-- A Running CORE always has a next state: no step of it is refused or stops (40_fetch_unit.md R127, 30_encoding.md R96);
a step stops exactly in Halted. -/
def Obligations.StepStopsExactlyWhenHalted : Prop :=
  ∀ s : State, (s.run = .running ↔ ∃ t, step s = .next t) ∧
    (s.run = .halted ↔ step s = .fault .halted) ∧ ∀ q, step s ≠ .refused q

/-- The FLT ports (60_exceptions.md R209): `halted` is `run == Halted`; `flt_valid` is `flt != none`, and equals `halted`
where the invariant holds; the ports show the latched fault's kind and value, its code and its fatal predicate, and
nothing where none is latched (the other ports are then absent by the model's choice, log 11). The code depends on the
kind only (R192), and the code of each kind is the number of R190's column, which the spec takes from general knowledge
(PRESUMED, log 4). -/
def Obligations.FaultPortsShowTheLatch : Prop :=
  (∀ s : State,
    ((fltOut s).halted = true ↔ s.run = .halted) ∧
    (s.flt = none → (fltOut s).shown = none) ∧
    (∀ f, s.flt = some f → (fltOut s).shown =
      some { kind := f.kind, value := f.value, code := faultCode f.kind, fatal := isFatal s.cfg f.kind }) ∧
    (s.latchAgrees → ((fltOut s).halted = true ↔ (fltOut s).shown.isSome))) ∧
  faultCode .instructionAddressMisaligned = 0 ∧ faultCode .instructionAccessFault = 1 ∧
  faultCode .illegalInstruction = 2 ∧ faultCode .breakpoint = 3 ∧
  faultCode .loadAddressMisaligned = 4 ∧ faultCode .loadAccessFault = 5 ∧
  faultCode .storeAMOAddressMisaligned = 6 ∧ faultCode .storeAMOAccessFault = 7 ∧
  faultCode .environmentCallFromUMode = 8 ∧ faultCode .environmentCallFromSMode = 9 ∧
  faultCode .environmentCallFromMMode = 11 ∧ faultCode .instructionPageFault = 12 ∧
  faultCode .loadPageFault = 13 ∧ faultCode .storeAMOPageFault = 15

/-- IS_FATAL (R193, 00_scope.md R8): true for IllegalInstruction and InstructionAccessFault in every CORE, so that an
IllegalInstruction shows as fatal at the ports; and every predicate that is true for the two is IS_FATAL, on every
kind, of the CORES of some parameter value, whatever their base, capacity and image, whose ports then show it for any
latched fault. -/
def Obligations.FatalPredicateIsAnyWithTwoKindsFatal : Prop :=
  (∀ p : Params, isFatal p .illegalInstruction = true ∧ isFatal p .instructionAccessFault = true) ∧
  (∀ (s : State) (f : FltShown), (fltOut s).shown = some f → f.kind = .illegalInstruction → f.fatal = true) ∧
  ∀ g : FaultKind → Bool, g .illegalInstruction = true → g .instructionAccessFault = true →
    ∃ t : FatalTable, ∀ (b : Word) (c : Nat),
      (∀ k, isFatal { memBase := b, memCapacity := c, fatal := t } k = g k) ∧
      ∀ (img : List Byte) (s : State), construct { memBase := b, memCapacity := c, fatal := t } img = .ok s →
        (∀ k, isFatal s.cfg k = g k) ∧
        ∀ (rs : List HostRequest) (f : FltShown), (fltOut (serveAll rs s)).shown = some f → f.fatal = g f.kind

/-! ## Reset, invariant and host -/

/-- Reset from an image (70_reset_and_hazards.md R231): for legal parameters and an image that fits, every byte, every
register, the pc, the run state and the latch; a longer image gives no CORE. -/
def Obligations.ResetFromImageSetsAllState : Prop :=
  ∀ (p : Params) (img : List Byte), p.legal = true →
    (p.memCapacity < img.length → ∀ s, construct p img ≠ .ok s) ∧
    (img.length ≤ p.memCapacity → ∃ s, construct p img = .ok s ∧ s.cfg = p ∧
      (∀ a < p.memCapacity, Memory.get s.mem a = if h : a < img.length then img[a] else 0) ∧
      (∀ i, readReg s i = if i = 2 then BitVec.ofNat 64 (p.memCapacity - 1) else 0) ∧
      s.pc = p.memBase ∧ s.run = .running ∧ s.flt = none)

/-- No CORE is constructed from an image longer than the bank (R232, decision D15 of the spec) or with parameters outside
the constraint of 00_scope.md R8 (decision D2). -/
def Obligations.ConstructionRefusesExactlyTheRest : Prop :=
  ∀ (p : Params) (img : List Byte),
    (∃ s, construct p img = .ok s) ↔
      1 ≤ p.memCapacity ∧ p.memBase.toNat + p.memCapacity ≤ 2 ^ 64 ∧ img.length ≤ p.memCapacity

/-- The machine's reset is the construction of the reference configuration from the empty image (95_test_vectors.md Z-1;
the reference values are the model's choice for `State.reset`, log 1, and the empty image is log 16). Nothing here
rests on the reset state's table of IS_FATAL (log 2). -/
def Obligations.ResetIsTheReferenceConstruction : Prop :=
  construct { memBase := 0, memCapacity := 134217728, fatal := State.reset.cfg.fatal } [] = .ok State.reset ∧
  core.reset = State.reset ∧ readReg State.reset 2 = 0x07FFFFFF ∧ (∀ i, i ≠ 2 → readReg State.reset i = 0) ∧
  State.reset.pc = 0 ∧ State.reset.run = .running ∧ State.reset.flt = none

/-- The invariant holds after reset and after every construction. -/
def Obligations.EveryConstructedCoreMeetsTheInvariant : Prop :=
  State.reset.Inv ∧ ∀ (p : Params) (img : List Byte) (s : State), construct p img = .ok s → s.Inv

/-- Every step keeps the invariant: legal parameters, canonical bank within its capacity, the cell behind x0 zero, latch
and run state agreeing (10_state.md R21, R27; 20_memory.md R51). -/
def Obligations.EveryStepKeepsTheInvariant : Prop :=
  ∀ s t : State, s.Inv → core.step s = .next t → t.Inv ∧ t.cfg = s.cfg

/-- Every sequence of host requests, LSU stores of any size and address among them, keeps the invariant and the
parameters. -/
def Obligations.EveryRequestSequenceKeepsTheInvariant : Prop :=
  ∀ (rs : List HostRequest) (s : State), s.Inv → (serveAll rs s).Inv ∧ (serveAll rs s).cfg = s.cfg

/-- What the host cannot do (70_reset_and_hazards.md R236): no request but a step changes a register, the pc, the run
state or the latch; no request but an LSU store changes memory. And what it gets back: a read returns what it names,
the names being the table of 10_state.md R24; a step is done, or there is none in Halted (the reply's name is the
model's choice, log 5); an LSU load returns the value or its fault; an LSU store is done or returns its fault. -/
def Obligations.HostRequestsChangeOnlyWhatTheyMay : Prop :=
  ∀ (r : HostRequest) (s : State),
    (r ≠ .step → (serve r s).2 = { s with mem := (serve r s).2.mem }) ∧
    ((∀ a n v, r ≠ .lsuStore a n v) → (serve r s).2.mem = s.mem) ∧
    (∀ i, serve (.readReg i) s = (.value (readReg s i), s)) ∧ serve .readPc s = (.value s.pc, s) ∧
    serve .readNames s = (.names ["zero", "ra", "sp", "gp", "tp", "t0", "t1", "t2", "s0", "s1",
      "a0", "a1", "a2", "a3", "a4", "a5", "a6", "a7", "s2", "s3", "s4", "s5", "s6", "s7", "s8", "s9", "s10", "s11",
      "t3", "t4", "t5", "t6"], s) ∧
    serve .readFault s = (.ports (fltOut s), s) ∧
    (∀ t, step s = .next t → serve .step s = (.done, t)) ∧
    (s.run = .running → (serve .step s).1 = .done) ∧
    (s.run = .halted → serve .step s = (.noStep .halted, s)) ∧
    (∀ a n v, lsuLoad s a n = .ok v → serve (.lsuLoad a n) s = (.value v, s)) ∧
    (∀ a n f, lsuLoad s a n = .error f → serve (.lsuLoad a n) s = (.faulted f, s)) ∧
    (∀ a n v t, lsuStore s a n v = .ok t → serve (.lsuStore a n v) s = (.done, t)) ∧
    (∀ a n v f, lsuStore s a n v = .error f → serve (.lsuStore a n v) s = (.faulted f, s))

/-- Running off the image (40_fetch_unit.md R133, derived there): four zero bytes at the pc halt the CORE with
IllegalInstruction(0); so does the first step from an empty image in a bank of at least 4 bytes (R233). -/
def Obligations.ZeroWordHaltsWithIllegalInstruction : Prop :=
  (∀ s : State, s.run = .running → s.cfg.covers s.pc 4 → (∀ k < 4, byteAtPc s k = 0) →
    step s = .next { s with flt := some { kind := .illegalInstruction, value := 0 }, run := .halted }) ∧
  ∀ (p : Params) (s : State), construct p [] = .ok s → 4 ≤ p.memCapacity →
    step s = .next { s with flt := some { kind := .illegalInstruction, value := 0 }, run := .halted }

/-- Running off the bank (R134, derived there): with legal parameters, and the bank not the whole address space, every
CORE halts within floor(MEM_CAPACITY / 4) + 1 steps of any Running state, whatever its memory, registers and pc. -/
def Obligations.EveryRunHaltsWithinTheCapacityBound : Prop :=
  ∀ s : State, s.cfg.legal = true → ¬ s.cfg.wholeSpace →
    (stepN (s.cfg.memCapacity / 4 + 1) s).run = .halted

/-- ADDI and ADD from the fetched word to the next state, with the word as its fields side by side in the order of
30_encoding.md R92 and R93 (places from general knowledge, log 3). -/
def Obligations.FetchedAluWordsStepToTheirSums : Prop :=
  (∀ (s : State) (imm : BitVec 12) (rs1 rd : RegIx) (funct3 : BitVec 3), s.run = .running →
    fetch s = .ok (imm ++ rs1 ++ funct3 ++ rd ++ 0x13#7) →
    ∃ t, step s = .next t ∧ t.pc = s.pc + 4 ∧ t.run = .running ∧
      ∀ r, readReg t r = if r = 0 then 0 else if r = rd then readReg s rs1 + imm.signExtend 64 else readReg s r) ∧
  ∀ (s : State) (funct7 : BitVec 7) (rs2 rs1 rd : RegIx) (funct3 : BitVec 3), s.run = .running →
    fetch s = .ok (funct7 ++ rs2 ++ rs1 ++ funct3 ++ rd ++ 0x33#7) →
    ∃ t, step s = .next t ∧ t.pc = s.pc + 4 ∧ t.run = .running ∧
      ∀ r, readReg t r = if r = 0 then 0 else if r = rd then readReg s rs1 + readReg s rs2 else readReg s r
end

