-- ==== Sys2Proof/Laws/Memory.lean ====
section
/-! SUPPORT. The memory bank as a list: the read-after-write laws, and that every operation keeps the canonical form. -/

namespace Sys2Proof.Machine

@[simp] theorem Memory.get_nil (a : Nat) : Memory.get [] a = 0#8 := rfl

@[simp] theorem Memory.get_cons (k : Nat) (b : Byte) (m : Memory) (a : Nat) :
    Memory.get ((k, b) :: m) a = if k < a then Memory.get m a else if k = a then b else 0#8 := rfl

theorem Memory.wf_nil : Memory.wf [] := by simp [Memory.wf]

theorem Memory.wf_tail {c : Host.Cell} {m : Memory} (h : Memory.wf (c :: m)) : Memory.wf m :=
  ⟨(List.pairwise_cons.1 h.1).2, fun d hd => h.2 d (List.mem_cons_of_mem _ hd)⟩

theorem Memory.wf_head_lt {c : Host.Cell} {m : Memory} (h : Memory.wf (c :: m)) : ∀ d ∈ m, c.1 < d.1 :=
  (List.pairwise_cons.1 h.1).1

theorem Memory.wf_cons {c : Host.Cell} {m : Memory} (hm : Memory.wf m) (hc : c.2 ≠ 0#8)
    (hlt : ∀ d ∈ m, c.1 < d.1) : Memory.wf (c :: m) :=
  ⟨List.pairwise_cons.2 ⟨hlt, hm.1⟩, fun d hd => by
    rcases List.mem_cons.1 hd with rfl | hd
    · exact hc
    · exact hm.2 d hd⟩

/-- Below every listed index the bank reads as zero. -/
theorem Memory.get_eq_zero_of_lt {m : Memory} {a : Nat} (h : ∀ c ∈ m, a < c.1) : Memory.get m a = 0#8 := by
  cases m with
  | nil => rfl
  | cons c m =>
    have := h c List.mem_cons_self
    simp [Memory.get, Nat.not_lt.2 this.le, this.ne']

theorem Memory.mem_cell {a : Nat} {b : Byte} {c : Host.Cell} (h : c ∈ Memory.cell a b) :
    c = (a, b) ∧ b ≠ 0#8 := by
  unfold Memory.cell at h
  split at h
  · simp at h
  · next hb => exact ⟨by simpa using h, hb⟩

/-- A cell in front of strictly larger indices. -/
theorem Memory.wf_cell_append {a : Nat} {b : Byte} {m : Memory} (hm : Memory.wf m)
    (hlt : ∀ d ∈ m, a < d.1) : Memory.wf (Memory.cell a b ++ m) := by
  unfold Memory.cell
  split
  · simpa using hm
  · next hb => exact Memory.wf_cons hm hb hlt

theorem Memory.get_cell_append {a : Nat} {b : Byte} {m : Memory} (hlt : ∀ d ∈ m, a < d.1) (k : Nat) :
    Memory.get (Memory.cell a b ++ m) k = if k = a then b else Memory.get m k := by
  unfold Memory.cell
  split
  · next hb =>
    by_cases hk : k = a
    · subst hk; simpa [hb] using Memory.get_eq_zero_of_lt hlt
    · simp [hk]
  · by_cases hk : k = a
    · subst hk; simp
    · by_cases hak : a < k
      · simp [hak, hk]
      · have hka : k < a := by omega
        rw [if_neg hk, Memory.get_eq_zero_of_lt (fun d hd => lt_trans hka (hlt d hd))]
        simp [hak, Ne.symm hk]

/-- Each cell after a write was there before or is the written one. -/
theorem Memory.mem_set {m : Memory} {a : Nat} {b : Byte} {c : Host.Cell} (h : c ∈ Memory.set m a b) :
    c ∈ m ∨ c.1 = a := by
  induction m with
  | nil => exact .inr (by rw [(Memory.mem_cell h).1])
  | cons d m ih =>
    obtain ⟨k, x⟩ := d
    simp only [Memory.set] at h
    split at h
    · rcases List.mem_cons.1 h with rfl | h
      · exact .inl List.mem_cons_self
      · exact (ih h).imp_left (List.mem_cons_of_mem _)
    · split at h
      · rcases List.mem_append.1 h with h | h
        · exact .inr (by rw [(Memory.mem_cell h).1])
        · exact .inl (List.mem_cons_of_mem _ h)
      · rcases List.mem_append.1 h with h | h
        · exact .inr (by rw [(Memory.mem_cell h).1])
        · exact .inl h

/-- A write keeps the canonical form. -/
theorem Memory.wf_set {m : Memory} (hm : Memory.wf m) (a : Nat) (b : Byte) : Memory.wf (Memory.set m a b) := by
  induction m with
  | nil => simpa [Memory.set] using Memory.wf_cell_append (b := b) Memory.wf_nil (a := a) (by simp)
  | cons d m ih =>
    obtain ⟨k, x⟩ := d
    have htail := Memory.wf_tail hm
    have hhead := Memory.wf_head_lt hm
    simp only [Memory.set]
    split
    · next hka =>
      refine Memory.wf_cons (ih htail) (hm.2 _ List.mem_cons_self) fun c hc => ?_
      rcases Memory.mem_set hc with hc | hc
      · exact hhead c hc
      · rw [hc]; exact hka
    · next hka =>
      split
      · next hk => exact Memory.wf_cell_append htail (hk ▸ hhead)
      · next hk =>
        have hak : a < k := by omega
        refine Memory.wf_cell_append hm fun c hc => ?_
        rcases List.mem_cons.1 hc with rfl | hc
        · exact hak
        · exact lt_trans hak (hhead c hc)

/-- Reading after a write: the written byte at the written index, the old byte elsewhere. -/
theorem Memory.get_set {m : Memory} (hm : Memory.wf m) (a : Nat) (b : Byte) (k : Nat) :
    Memory.get (Memory.set m a b) k = if k = a then b else Memory.get m k := by
  induction m with
  | nil => simpa [Memory.set] using Memory.get_cell_append (a := a) (b := b) (m := []) (by simp) k
  | cons d m ih =>
    obtain ⟨j, x⟩ := d
    have htail := Memory.wf_tail hm
    have hhead := Memory.wf_head_lt hm
    simp only [Memory.set]
    split
    · next hja =>
      rw [Memory.get_cons, Memory.get_cons, ih htail]
      by_cases hk : k = a
      · subst hk; simp [hja]
      · simp [hk]
    · next hja =>
      split
      · next hj =>
        subst hj
        rw [Memory.get_cell_append hhead, Memory.get_cons]
        by_cases hk : k = j
        · simp [hk]
        · by_cases hjk : j < k
          · simp [hk, hjk]
          · have hkj : k < j := by omega
            simp [hk, hjk, Ne.symm hk, Memory.get_eq_zero_of_lt fun c hc => lt_trans hkj (hhead c hc)]
      · next hj =>
        have haj : a < j := by omega
        refine Memory.get_cell_append (fun c hc => ?_) k
        rcases List.mem_cons.1 hc with rfl | hc
        · exact haj
        · exact lt_trans haj (hhead c hc)

theorem Memory.within_set {m : Memory} {cap : Nat} (h : Memory.within m cap) {a : Nat} (ha : a < cap) (b : Byte) :
    Memory.within (Memory.set m a b) cap := fun c hc => by
  rcases Memory.mem_set hc with hc | hc
  · exact h c hc
  · rw [hc]; exact ha

/-- Outside the listed range the bank reads as zero. -/
theorem Memory.get_eq_zero_of_within {m : Memory} {cap : Nat} (h : Memory.within m cap) {a : Nat} (ha : cap ≤ a) :
    Memory.get m a = 0#8 := by
  induction m with
  | nil => rfl
  | cons c m ih =>
    have hc : c.1 < a := lt_of_lt_of_le (h c List.mem_cons_self) ha
    simpa [Memory.get, hc] using ih fun d hd => h d (List.mem_cons_of_mem _ hd)

/-- A canonical bank is determined by its bytes. -/
theorem Memory.ext_get {m m' : Memory} (hm : Memory.wf m) (hm' : Memory.wf m')
    (h : ∀ a, Memory.get m a = Memory.get m' a) : m = m' := by
  induction m generalizing m' with
  | nil =>
    cases m' with
    | nil => rfl
    | cons d m' => exact absurd (by simpa [Memory.get] using (h d.1).symm) (hm'.2 d List.mem_cons_self)
  | cons c m ih =>
    cases m' with
    | nil => exact absurd (by simpa [Memory.get] using h c.1) (hm.2 c List.mem_cons_self)
    | cons d m' =>
      obtain ⟨i, x⟩ := c
      obtain ⟨j, y⟩ := d
      have hx : x ≠ 0#8 := hm.2 _ List.mem_cons_self
      have hy : y ≠ 0#8 := hm'.2 _ List.mem_cons_self
      have hij : i = j := by
        rcases Nat.lt_trichotomy i j with hlt | heq | hgt
        · exact absurd (by simpa [Nat.not_lt.2 hlt.le, hlt.ne'] using h i) hx
        · exact heq
        · exact absurd (by simpa [Nat.not_lt.2 hgt.le, hgt.ne'] using (h j).symm) hy
      subst hij
      have hxy : x = y := by simpa using h i
      subst hxy
      congr 1
      refine ih (Memory.wf_tail hm) (Memory.wf_tail hm') fun a => ?_
      by_cases ha : i < a
      · simpa [ha] using h a
      · rw [Memory.get_eq_zero_of_lt fun c hc => lt_of_le_of_lt (by omega) (Memory.wf_head_lt hm c hc),
          Memory.get_eq_zero_of_lt fun c hc => lt_of_le_of_lt (by omega) (Memory.wf_head_lt hm' c hc)]

/-! ## Images (20_memory.md R52) -/

theorem imageCells_ge {k : Nat} {img : List Byte} {c : Host.Cell} (h : c ∈ imageCells k img) : k ≤ c.1 := by
  induction img generalizing k with
  | nil => simp [imageCells] at h
  | cons b img ih =>
    rcases List.mem_append.1 h with h | h
    · rw [(Memory.mem_cell h).1]
    · exact Nat.le_of_succ_le (ih h)

theorem imageCells_lt {k : Nat} {img : List Byte} {c : Host.Cell} (h : c ∈ imageCells k img) :
    c.1 < k + img.length := by
  induction img generalizing k with
  | nil => simp [imageCells] at h
  | cons b img ih =>
    rcases List.mem_append.1 h with h | h
    · rw [(Memory.mem_cell h).1]; simp
    · have := ih h; simp only [List.length_cons]; omega

/-- An image's bank is canonical. -/
theorem imageCells_wf (k : Nat) (img : List Byte) : Memory.wf (imageCells k img) := by
  induction img generalizing k with
  | nil => exact Memory.wf_nil
  | cons b img ih => exact Memory.wf_cell_append (ih _) fun c hc => imageCells_ge hc

/-- The bytes of an image's bank. -/
theorem imageCells_get (k : Nat) (img : List Byte) (a : Nat) :
    Memory.get (imageCells k img) (k + a) = img.getD a 0#8 := by
  induction img generalizing k a with
  | nil => simp [imageCells]
  | cons b img ih =>
    rw [imageCells, Memory.get_cell_append fun c hc => imageCells_ge hc]
    cases a with
    | zero => simp
    | succ a => simpa [Nat.add_right_comm, Nat.add_assoc] using ih (k + 1) a

/-- The reset state's memory has the canonical form. -/
theorem reset_mem_wf : Memory.wf State.reset.mem := Memory.wf_nil

end Sys2Proof.Machine
end

