-- ==== Sys2Proof/Laws/Bank.lean ====
section
/-! SUPPORT. Little-endian reads and writes of the bank, byte by byte (20_memory.md R56, R58). -/

namespace Sys2Proof.Machine

theorem byteOf_getLsbD (v : Word) (k i : Nat) (hi : i < 8) : (byteOf v k).getLsbD i = v.getLsbD (8 * k + i) := by
  simp [byteOf, hi]

/-- A word is determined by its eight bytes. -/
theorem word_ext_byteOf {v w : Word} (h : ∀ k < 8, byteOf v k = byteOf w k) : v = w := by
  refine BitVec.eq_of_getLsbD_eq fun i hi => ?_
  have hb := congrArg (fun b : Byte => b.getLsbD (i % 8)) (h (i / 8) (by omega))
  simpa [byteOf_getLsbD _ _ _ (Nat.mod_lt i (by norm_num : 0 < 8)), Nat.div_add_mod] using hb

theorem byteOf_or (v w : Word) (k : Nat) : byteOf (v ||| w) k = byteOf v k ||| byteOf w k := by
  refine BitVec.eq_of_getLsbD_eq fun i hi => ?_
  simp [byteOf, hi]

theorem byteOf_shifted (b : Byte) {n : Nat} (hn : n < 8) (k : Nat) :
    byteOf (b.setWidth 64 <<< (8 * n)) k = if k = n then b else 0#8 := by
  refine BitVec.eq_of_getLsbD_eq fun i hi => ?_
  rw [byteOf_getLsbD _ _ _ hi]
  by_cases hk : k = n
  · subst hk
    have h1 : 8 * k + i < 64 := by omega
    simp [h1]
  · rw [if_neg hk]
    rcases Nat.lt_or_gt_of_ne hk with h | h
    · have h1 : 8 * k + i < 8 * n := by omega
      simp [h1]
    · have h1 : 8 ≤ 8 * k + i - 8 * n := by omega
      simp [BitVec.getLsbD_of_ge _ _ h1]

/-- The bytes of a bank read (R56): those of the bank below `n`, zero above. -/
theorem byteOf_bankRead (m : Memory) (index : Nat) {n : Nat} (hn : n ≤ 8) (k : Nat) :
    byteOf (bankRead m index n) k = if k < n then Memory.get m (index + k) else 0#8 := by
  induction n with
  | zero => simp [bankRead, byteOf]
  | succ n ih =>
    rw [bankRead, byteOf_or, ih (by omega), byteOf_shifted _ (by omega)]
    rcases Nat.lt_trichotomy k n with h | h | h
    · simp [h, h.ne, Nat.lt_succ_of_lt h]
    · subst h; simp
    · have h1 : ¬ k < n := by omega
      have h2 : ¬ k < n + 1 := by omega
      simp [h1, h2, h.ne']

/-- A bank read is the value whose bytes are those of the bank, zero-extended (R56). -/
theorem bankRead_eq_iff (m : Memory) (index : Nat) {n : Nat} (hn : n ≤ 8) (v : Word) :
    bankRead m index n = v ↔ ∀ k < 8, byteOf v k = if k < n then Memory.get m (index + k) else 0#8 :=
  ⟨fun h k _ => by rw [← h, byteOf_bankRead m index hn], fun h =>
    word_ext_byteOf fun k hk => by rw [byteOf_bankRead m index hn, h k hk]⟩

/-- The low 32 bits of a four-byte read are its bytes side by side, the last one highest. -/
theorem bankRead_four (m : Memory) (i : Nat) : (bankRead m i 4).setWidth 32 =
    Memory.get m (i + 3) ++ Memory.get m (i + 2) ++ Memory.get m (i + 1) ++ Memory.get m i := by
  refine BitVec.eq_of_getLsbD_eq fun j hj => ?_
  have h := congrArg (fun b : Byte => b.getLsbD (j % 8)) (byteOf_bankRead m i (n := 4) (by omega) (j / 8))
  simp only [byteOf_getLsbD _ _ _ (Nat.mod_lt j (by norm_num : 0 < 8)), Nat.div_add_mod] at h
  rw [if_pos (by omega)] at h
  rw [BitVec.getLsbD_setWidth, h]
  simp only [BitVec.getLsbD_append]
  interval_cases j <;> simp

/-- A bank write keeps the canonical form. -/
theorem wf_bankWrite {m : Memory} (hm : Memory.wf m) (index : Nat) (v : Word) (n : Nat) :
    Memory.wf (bankWrite m index v n) := by
  induction n with
  | zero => exact hm
  | succ n ih => exact Memory.wf_set ih _ _

/-- The bytes after a bank write (R58): the value's in the targeted range, the old ones elsewhere. -/
theorem get_bankWrite {m : Memory} (hm : Memory.wf m) (index : Nat) (v : Word) (n a : Nat) :
    Memory.get (bankWrite m index v n) a =
      if index ≤ a ∧ a < index + n then byteOf v (a - index) else Memory.get m a := by
  induction n with
  | zero => rw [if_neg (by omega)]; rfl
  | succ n ih =>
    rw [bankWrite, Memory.get_set (wf_bankWrite hm index v n), ih]
    by_cases h : a = index + n
    · subst h; simp
    · rw [if_neg h]
      by_cases h' : index ≤ a ∧ a < index + n
      · rw [if_pos h', if_pos ⟨h'.1, by omega⟩]
      · rw [if_neg h', if_neg (by omega)]

theorem within_bankWrite {m : Memory} {cap : Nat} (h : Memory.within m cap) {index : Nat} (v : Word) {n : Nat}
    (hn : index + n ≤ cap) : Memory.within (bankWrite m index v n) cap := by
  induction n with
  | zero => exact h
  | succ n ih => exact Memory.within_set (ih (by omega)) (by omega) _

end Sys2Proof.Machine
end

