-- ==== Sys2Proof/Laws/State.lean ====
section
/-! SUPPORT. One lemma per field per update of State, and the register laws. -/

namespace Sys2Proof.Machine

variable (s : State)

@[simp] theorem setMem_cfg (m : Memory) : (s.setMem m).cfg = s.cfg := rfl
@[simp] theorem setMem_regs (m : Memory) : (s.setMem m).regs = s.regs := rfl
@[simp] theorem setMem_pc (m : Memory) : (s.setMem m).pc = s.pc := rfl
@[simp] theorem setMem_run (m : Memory) : (s.setMem m).run = s.run := rfl
@[simp] theorem setMem_flt (m : Memory) : (s.setMem m).flt = s.flt := rfl
@[simp] theorem setMem_mem (m : Memory) : (s.setMem m).mem = m := rfl

@[simp] theorem writeReg_cfg (i : RegIx) (v : Word) : (writeReg s i v).cfg = s.cfg := rfl
@[simp] theorem writeReg_regs (i : RegIx) (v : Word) : (writeReg s i v).regs = rfWrite s.regs i v := rfl
@[simp] theorem writeReg_pc (i : RegIx) (v : Word) : (writeReg s i v).pc = s.pc := rfl
@[simp] theorem writeReg_run (i : RegIx) (v : Word) : (writeReg s i v).run = s.run := rfl
@[simp] theorem writeReg_flt (i : RegIx) (v : Word) : (writeReg s i v).flt = s.flt := rfl
@[simp] theorem writeReg_mem (i : RegIx) (v : Word) : (writeReg s i v).mem = s.mem := rfl

@[simp] theorem setPc_cfg (a : Word) : (setPc s a).cfg = s.cfg := rfl
@[simp] theorem setPc_regs (a : Word) : (setPc s a).regs = s.regs := rfl
@[simp] theorem setPc_pc (a : Word) : (setPc s a).pc = a := rfl
@[simp] theorem setPc_run (a : Word) : (setPc s a).run = s.run := rfl
@[simp] theorem setPc_flt (a : Word) : (setPc s a).flt = s.flt := rfl
@[simp] theorem setPc_mem (a : Word) : (setPc s a).mem = s.mem := rfl

@[simp] theorem takeFault_cfg (f : FaultRecord) : (takeFault s f).cfg = s.cfg := rfl
@[simp] theorem takeFault_regs (f : FaultRecord) : (takeFault s f).regs = s.regs := rfl
@[simp] theorem takeFault_pc (f : FaultRecord) : (takeFault s f).pc = s.pc := rfl
@[simp] theorem takeFault_run (f : FaultRecord) : (takeFault s f).run = .halted := rfl
@[simp] theorem takeFault_flt (f : FaultRecord) : (takeFault s f).flt = some f := rfl
@[simp] theorem takeFault_mem (f : FaultRecord) : (takeFault s f).mem = s.mem := rfl

@[simp] theorem retire_cfg (i : RegIx) (v : Word) : (retire s i v).cfg = s.cfg := rfl
@[simp] theorem retire_regs (i : RegIx) (v : Word) : (retire s i v).regs = rfWrite s.regs i v := rfl
@[simp] theorem retire_pc (i : RegIx) (v : Word) : (retire s i v).pc = s.pc + 4#64 := rfl
@[simp] theorem retire_run (i : RegIx) (v : Word) : (retire s i v).run = s.run := rfl
@[simp] theorem retire_flt (i : RegIx) (v : Word) : (retire s i v).flt = s.flt := rfl
@[simp] theorem retire_mem (i : RegIx) (v : Word) : (retire s i v).mem = s.mem := rfl

/-- Two states that agree on the register file read alike. -/
theorem readReg_congr {s t : State} (h : s.regs = t.regs) (i : RegIx) : readReg s i = readReg t i := by
  simp only [readReg, h]

theorem readReg_zero : readReg s 0#5 = 0#64 := rfl

/-- Reading after a write: x0 stays zero, the written register holds the value, the others hold theirs. -/
theorem readReg_writeReg (i j : RegIx) (v : Word) :
    readReg (writeReg s i v) j = if j = 0#5 then 0#64 else if j = i then v else readReg s j := by
  by_cases hj : j = 0#5
  · simp [readReg, hj]
  · by_cases hi : i = 0#5
    · have : j ≠ i := by rw [hi]; exact hj
      simp [readReg, rfWrite, hj, hi]
    · by_cases hji : j = i
      · subst hji; simp [readReg, rfWrite, hj]
      · have hne : i.toNat ≠ j.toNat := fun h => hji (BitVec.eq_of_toNat_eq h.symm)
        simp [readReg, rfWrite, hj, hi, hji, hne]

/-- The registers after a completing instruction. -/
theorem readReg_retire (i j : RegIx) (v : Word) :
    readReg (retire s i v) j = if j = 0#5 then 0#64 else if j = i then v else readReg s j := by
  rw [← readReg_writeReg s i j v]; exact readReg_congr rfl j

/-- The cell behind x0 is never written (10_state.md R21). -/
theorem rfWrite_zero_cell (rf : Vector Word 32) (i : RegIx) (v : Word) : (rfWrite rf i v)[0] = rf[0] := by
  unfold rfWrite
  split
  · rfl
  · next h =>
    have : i.toNat ≠ 0 := fun e => h (BitVec.eq_of_toNat_eq (by simpa using e))
    simp [this]

/-- A write to x0 changes nothing (10_state.md R21). -/
theorem writeReg_x0 (v : Word) : writeReg s 0#5 v = s := rfl

/-- The registers of the reset state: x2 is SP_INIT, the others are zero (10_state.md R29). -/
theorem readReg_resetWith (p : Params) (m : Memory) (i : RegIx) :
    readReg (State.resetWith p m) i = if i = 2#5 then p.spInit else 0#64 := by
  by_cases hi : i = 0#5
  · subst hi; rfl
  · have key : (2 : Nat) = i.toNat ↔ i = 2#5 :=
      ⟨fun h => BitVec.eq_of_toNat_eq (by simpa using h.symm), fun h => by subst h; rfl⟩
    simp [readReg, State.resetWith, hi, Vector.getElem_set, key]

end Sys2Proof.Machine
end

