-- ==== Sys2Proof/Laws/Bus.lean ====
section
/-! SUPPORT. Everything a bus request can do (20_memory.md R60 to R66). -/

namespace Sys2Proof.Machine

/-- The condition under which an access of `size` bits at `addr` is served: a legal size, the first byte in the bank,
and the last byte too. -/
abbrev Served (p : Params) (addr : Word) (size : Nat) : Prop :=
  legalSize size = true ∧ inRange p addr = true ∧ bankIndex p addr + size / 8 ≤ p.memCapacity

theorem legalSize_div {size : Nat} (h : legalSize size = true) : 0 < size / 8 ∧ size / 8 ≤ 8 ∧ 8 * (size / 8) = size := by
  simp only [legalSize, Bool.or_eq_true, beq_iff_eq] at h
  omega

theorem inRange_iff (p : Params) (a : Word) :
    inRange p a = true ↔ p.memBase.toNat ≤ a.toNat ∧ a.toNat < p.memBase.toNat + p.memCapacity := by
  simp [inRange]

/-- At or above the base, the bank index is the difference (R54). -/
theorem bankIndex_of_le {p : Params} {a : Word} (h : p.memBase.toNat ≤ a.toNat) :
    bankIndex p a = a.toNat - p.memBase.toNat := by
  have := BitVec.toNat_sub_of_le (BitVec.le_def.2 h)
  exact this

theorem busLoad_of_served {s : State} {addr : Word} {size : Nat} (h : Served s.cfg addr size) :
    busLoad s addr size = .ok (bankRead s.mem (bankIndex s.cfg addr) (size / 8)) := by
  simp [busLoad, memLoad, h.1, h.2.1, Nat.not_lt.2 h.2.2]

theorem busLoad_of_not_served {s : State} {addr : Word} {size : Nat} (h : ¬ Served s.cfg addr size) :
    busLoad s addr size = .error (loadFault addr) := by
  unfold busLoad memLoad
  split
  · next hr =>
    split
    · rfl
    · next hl =>
      split
      · rfl
      · next hb => exact absurd ⟨by simpa using hl, hr, Nat.not_lt.1 hb⟩ h
  · rfl

theorem busStore_of_served {s : State} {addr : Word} {size : Nat} (h : Served s.cfg addr size) (v : Word) :
    busStore s addr size v = .ok (s.setMem (bankWrite s.mem (bankIndex s.cfg addr) v (size / 8))) := by
  simp [busStore, memStore, h.1, h.2.1, Nat.not_lt.2 h.2.2]

theorem busStore_of_not_served {s : State} {addr : Word} {size : Nat} (h : ¬ Served s.cfg addr size) (v : Word) :
    busStore s addr size v = .error (storeFault addr) := by
  unfold busStore memStore
  split
  · next hr =>
    split
    · rfl
    · next hl =>
      split
      · rfl
      · next hb => exact absurd ⟨by simpa using hl, hr, Nat.not_lt.1 hb⟩ h
  · rfl

/-- Serving an access does not depend on the bank's contents. -/
theorem busLoad_setMem_of_served {s : State} {addr : Word} {size : Nat} (h : Served s.cfg addr size) (m : Memory) :
    busLoad (s.setMem m) addr size = .ok (bankRead m (bankIndex s.cfg addr) (size / 8)) :=
  busLoad_of_served (s := s.setMem m) h

theorem busStore_setMem_of_served {s : State} {addr : Word} {size : Nat} (h : Served s.cfg addr size) (m : Memory)
    (v : Word) : busStore (s.setMem m) addr size v =
      .ok (s.setMem (bankWrite m (bankIndex s.cfg addr) v (size / 8))) :=
  busStore_of_served (s := s.setMem m) h v

theorem bankIndex_of_served {p : Params} {addr : Word} {size : Nat} (h : Served p addr size) :
    bankIndex p addr = addr.toNat - p.memBase.toNat :=
  bankIndex_of_le ((inRange_iff p addr).1 h.2.1).1

/-- An access is served when its size is legal and the bank covers its bytes. -/
theorem served_iff_covers (p : Params) (addr : Word) (size : Nat) :
    Served p addr size ↔ legalSize size = true ∧ p.covers addr (size / 8) := by
  constructor
  · intro h
    have hi := bankIndex_of_served h
    obtain ⟨hl, hr, hb⟩ := h
    exact ⟨hl, ((inRange_iff p addr).1 hr).1, hi ▸ hb⟩
  · rintro ⟨hl, hle, hb⟩
    have := (legalSize_div hl).1
    exact ⟨hl, (inRange_iff p addr).2 ⟨hle, by omega⟩, by rw [bankIndex_of_le hle]; exact hb⟩

/-- All a bus load can answer. -/
theorem busLoad_cases (s : State) (addr : Word) (size : Nat) :
    (Served s.cfg addr size ∧ busLoad s addr size = .ok (bankRead s.mem (bankIndex s.cfg addr) (size / 8))) ∨
    (¬ Served s.cfg addr size ∧ busLoad s addr size = .error (loadFault addr)) := by
  by_cases h : Served s.cfg addr size
  · exact .inl ⟨h, busLoad_of_served h⟩
  · exact .inr ⟨h, busLoad_of_not_served h⟩

/-- All a bus store can answer. -/
theorem busStore_cases (s : State) (addr : Word) (size : Nat) (v : Word) :
    (Served s.cfg addr size ∧
      busStore s addr size v = .ok (s.setMem (bankWrite s.mem (bankIndex s.cfg addr) v (size / 8)))) ∨
    (¬ Served s.cfg addr size ∧ busStore s addr size v = .error (storeFault addr)) := by
  by_cases h : Served s.cfg addr size
  · exact .inl ⟨h, busStore_of_served h v⟩
  · exact .inr ⟨h, busStore_of_not_served h v⟩

end Sys2Proof.Machine
end

