-- ==== Sys2Proof/Laws/Decode.lean ====
section
/-! SUPPORT. What the decoder answers by opcode, and the form of what it answers. -/

namespace Sys2Proof

theorem decodeWord_of_addi {w : InstrWord} (h : fieldOpcode w = 0x13#7) :
    decodeWord w = .instr (.addi (fieldRd w) (fieldRs1 w) (immI w)) := by
  simp [decodeWord, idOut, classOf, h]

theorem decodeWord_of_add {w : InstrWord} (h : fieldOpcode w = 0x33#7) :
    decodeWord w = .instr (.add (fieldRd w) (fieldRs1 w) (fieldRs2 w)) := by
  simp [decodeWord, idOut, classOf, h]

theorem decodeWord_of_other {w : InstrWord} (h1 : fieldOpcode w ≠ 0x13#7) (h2 : fieldOpcode w ≠ 0x33#7) :
    decodeWord w = .illegal ((fieldOpcode w).setWidth 64) := by
  simp [decodeWord, idOut, classOf, h1, h2]

/-- Every 12-bit immediate is in range (30_encoding.md R94). -/
theorem fitsImm12_sext12 (v : BitVec 12) : fitsImm12 (sext12 v) = true := by
  have h : (sext12 v).toInt = v.toInt := BitVec.toInt_signExtend_of_le (by norm_num)
  have h1 := BitVec.le_toInt v
  have h2 := BitVec.toInt_lt (x := v)
  simp only [fitsImm12, h, Bool.and_eq_true, decide_eq_true_eq]
  norm_num at h1 h2
  omega

/-- An immediate in range is the sign extension of its low 12 bits. -/
theorem sext12_of_fits {imm : Word} (h : fitsImm12 imm = true) : sext12 (imm.setWidth 12) = imm := by
  simp only [fitsImm12, Bool.and_eq_true, decide_eq_true_eq] at h
  refine BitVec.eq_of_toInt_eq ?_
  rw [sext12, BitVec.toInt_signExtend_of_le (by norm_num), BitVec.toInt_setWidth]
  have e := BitVec.toInt_eq_toNat_bmod imm
  rw [e] at h ⊢
  simp only [Int.bmod_def] at h ⊢
  omega

end Sys2Proof
end

