-- ==== Sys2Proof/Laws/PerInstr.lean ====
section
/-! SUPPORT. Statements made per instruction. -/

namespace Sys2Proof

/-- The value of `match` in the instruction's row of spec/opcode_table.json. -/
def Instr.opcode : Instr → BitVec 7
  | .addi _ _ _ => 0x13#7
  | .add _ _ _ => 0x33#7

/-- The encoder writes the row's opcode, with zero in the bits the decoder does not examine. -/
def Laws.Opcode.Statement (i : Instr) : Prop :=
  fieldOpcode (encode i) = i.opcode ∧ fieldFunct3 (encode i) = 0#3 ∧
    (i.opcode = 0x33#7 → fieldFunct7 (encode i) = 0#7)

theorem Laws.Opcode.addi (rd rs1 : RegIx) (imm : Word) : Laws.Opcode.Statement (.addi rd rs1 imm) := by
  refine ⟨?_, ?_, fun h => absurd (show (0x13#7) = 0x33#7 from h) (by decide)⟩
  · refine BitVec.eq_of_getLsbD_eq fun i hi => ?_
    interval_cases i <;> simp [encode, fieldOpcode, Instr.opcode]
  · refine BitVec.eq_of_getLsbD_eq fun i hi => ?_
    interval_cases i <;> simp [encode, fieldFunct3]

theorem Laws.Opcode.add (rd rs1 rs2 : RegIx) : Laws.Opcode.Statement (.add rd rs1 rs2) := by
  refine ⟨?_, ?_, fun _ => ?_⟩
  · refine BitVec.eq_of_getLsbD_eq fun i hi => ?_
    interval_cases i <;> simp [encode, fieldOpcode, Instr.opcode]
  · refine BitVec.eq_of_getLsbD_eq fun i hi => ?_
    interval_cases i <;> simp [encode, fieldFunct3]
  · refine BitVec.eq_of_getLsbD_eq fun i hi => ?_
    interval_cases i <;> simp [encode, fieldFunct7]

end Sys2Proof
end

