-- ==== Sys2Proof/Laws/Step.lean ====
section
/-! SUPPORT. Everything a fetch, a step and a host request can do. -/

namespace Sys2Proof.Machine

/-- All a fetch can answer (40_fetch_unit.md R120, R122). -/
theorem fetch_cases (s : State) :
    (Served s.cfg s.pc 32 ∧ fetch s = .ok ((bankRead s.mem (bankIndex s.cfg s.pc) 4).setWidth 32)) ∨
    (¬ Served s.cfg s.pc 32 ∧ fetch s = .error (loadFault s.pc)) := by
  rcases busLoad_cases s s.pc 32 with ⟨h, e⟩ | ⟨h, e⟩
  · exact .inl ⟨h, by rw [fetch, e]⟩
  · exact .inr ⟨h, by rw [fetch, e]⟩

/-- Executing an instruction always completes, by retiring its result. -/
theorem exec_retires (i : Instr) (s : State) : ∃ rd v, exec i s = .next (retire s rd v) := by
  cases i with
  | addi rd rs1 imm => exact ⟨_, _, rfl⟩
  | add rd rs1 rs2 => exact ⟨_, _, rfl⟩

theorem step_of_halted {s : State} (h : s.run = .halted) : step s = .fault .halted := by
  simp [step, cycle, h]

theorem step_of_fetch_fault {s : State} (h : s.run = .running) {f : FaultRecord} (hf : fetch s = .error f) :
    step s = .next (takeFault s f) := by
  simp [step, cycle, h, hf]

theorem step_of_illegal {s : State} (h : s.run = .running) {w : InstrWord} (hf : fetch s = .ok w) {v : Word}
    (hd : decodeWord w = .illegal v) : step s = .next (takeFault s (illegalFault v)) := by
  simp [step, cycle, decodeCycle, h, hf, hd]

/-- All a step can do (40_fetch_unit.md R127). -/
theorem step_cases (s : State) :
    (s.run = .halted ∧ step s = .fault .halted) ∨
    (s.run = .running ∧ ∃ f, fetch s = .error f ∧ step s = .next (takeFault s f)) ∨
    (s.run = .running ∧ ∃ w v, fetch s = .ok w ∧ decodeWord w = .illegal v ∧
      step s = .next (takeFault s (illegalFault v))) ∨
    (s.run = .running ∧ ∃ w i, fetch s = .ok w ∧ decodeWord w = .instr i ∧ step s = exec i s) := by
  cases h : s.run with
  | halted => exact .inl ⟨rfl, step_of_halted h⟩
  | running =>
    refine .inr ?_
    cases hf : fetch s with
    | error f => exact .inl ⟨rfl, f, rfl, step_of_fetch_fault h hf⟩
    | ok w =>
      cases hd : decodeWord w with
      | illegal v => exact .inr (.inl ⟨rfl, w, v, rfl, hd, step_of_illegal h hf hd⟩)
      | instr i =>
        refine .inr (.inr ⟨rfl, w, i, rfl, hd, ?_⟩)
        simp [step, cycle, decodeCycle, h, hf, hd]

/-- The next states of a step: a fault taken, or a result retired. -/
theorem step_next_cases {s t : State} (h : step s = .next t) :
    s.run = .running ∧ ((∃ f, t = takeFault s f) ∨ ∃ rd v, t = retire s rd v) := by
  rcases step_cases s with ⟨_, e⟩ | ⟨hr, f, _, e⟩ | ⟨hr, _, v, _, _, e⟩ | ⟨hr, _, i, _, _, e⟩
  · rw [e] at h; cases h
  · rw [e] at h; cases h; exact ⟨hr, .inl ⟨f, rfl⟩⟩
  · rw [e] at h; cases h; exact ⟨hr, .inl ⟨_, rfl⟩⟩
  · obtain ⟨rd, v, ev⟩ := exec_retires i s
    rw [e, ev] at h; cases h; exact ⟨hr, .inr ⟨rd, v, rfl⟩⟩

/-- The states a host step leads to. -/
theorem serve_step_cases (s : State) :
    (step s = .fault .halted ∧ (serve .step s).2 = s) ∨ ∃ t, step s = .next t ∧ (serve .step s).2 = t := by
  rcases step_cases s with ⟨_, e⟩ | ⟨_, f, _, e⟩ | ⟨_, _, v, _, _, e⟩ | ⟨_, _, i, _, _, e⟩
  · exact .inl ⟨e, by simp [serve, e]⟩
  · exact .inr ⟨_, e, by simp [serve, e]⟩
  · exact .inr ⟨_, e, by simp [serve, e]⟩
  · obtain ⟨rd, v, ev⟩ := exec_retires i s
    exact .inr ⟨_, e.trans ev, by simp [serve, e.trans ev]⟩

/-- A host request leads to the same state, to a step's next state, or to a store's memory. -/
theorem serve_cases (r : HostRequest) (s : State) :
    (serve r s).2 = s ∨ step s = .next (serve r s).2 ∨
    ∃ a n v, Served s.cfg a n ∧ r = .lsuStore a n v ∧
      (serve r s).2 = s.setMem (bankWrite s.mem (bankIndex s.cfg a) v (n / 8)) := by
  cases r with
  | step =>
    rcases serve_step_cases s with ⟨_, e⟩ | ⟨t, e, e'⟩
    · exact .inl e
    · exact .inr (.inl (by rw [e']; exact e))
  | lsuStore a n v =>
    rcases busStore_cases s a n v with ⟨h, e⟩ | ⟨_, e⟩
    · exact .inr (.inr ⟨a, n, v, h, rfl, by simp [serve, Sys2Proof.Machine.lsuStore, e]⟩)
    · exact .inl (by simp [serve, Sys2Proof.Machine.lsuStore, e])
  | lsuLoad a n => exact .inl (by simp only [serve]; split <;> rfl)
  | readReg i => exact .inl rfl
  | readPc => exact .inl rfl
  | readNames => exact .inl rfl
  | readFault => exact .inl rfl

/-- A construction that is not refused is the reset state of its image (70_reset_and_hazards.md R231). -/
theorem construct_ok {p : Params} {img : List Byte} (hl : p.legal = true) (hi : img.length ≤ p.memCapacity) :
    construct p img = .ok (State.resetWith p (imageCells 0 img)) := by
  simp [construct, hl, Nat.not_lt.2 hi]

/-- All a construction can answer (R231, R232; 00_scope.md R8). -/
theorem construct_cases (p : Params) (img : List Byte) :
    (p.legal = false ∧ construct p img = .error .badParameters) ∨
    (p.legal = true ∧ p.memCapacity < img.length ∧ construct p img = .error .imageTooLong) ∨
    (p.legal = true ∧ img.length ≤ p.memCapacity ∧
      construct p img = .ok (State.resetWith p (imageCells 0 img))) := by
  cases hl : p.legal with
  | false => exact .inl ⟨rfl, by simp [construct, hl]⟩
  | true =>
    by_cases hi : p.memCapacity < img.length
    · exact .inr (.inl ⟨rfl, hi, by simp [construct, hl, hi]⟩)
    · exact .inr (.inr ⟨rfl, Nat.not_lt.1 hi, construct_ok hl (Nat.not_lt.1 hi)⟩)

end Sys2Proof.Machine
end

