-- ==== Sys2Proof/Tests/Slice0.lean ====
section
/-! SUPPORT. Small tests, their expected results from the spec (95_test_vectors.md unless another file is named), and for
each statement with hypotheses a witness that they can be met together, at the boundary of each clause. -/

namespace Sys2Proof.Tests
open Sys2Proof Sys2Proof.Machine

/-- The next state of an outcome, if it is one. -/
def nextOf : Host.Outcome State Fault Refusal → Option State
  | .next s => some s
  | _ => none

/-- Parameters with no kind of R193's open part fatal. -/
def params (base : Word) (capacity : Nat) : Params :=
  { memBase := base, memCapacity := capacity, fatal := FatalTable.ofPred fun _ => false }

/-- A reset bank of 0x100 bytes at 0x1000 (vectors F-8 to F-10) with the pc elsewhere. -/
def small (pc : Word) (m : Memory) : State :=
  { State.resetWith (params 0x1000 0x100) m with pc := pc }

/-- The reference configuration with a word in place of the image's first (reset pc). -/
def withWord (w : Nat) : State := State.reset.withFetchWord 32 w

/-- ADD x1, x2, x3 (0x003100B3: bytes B3 00 31 00) at the misaligned address 0x1002. -/
def adding : State := small 0x1002 [(2, 0xB3), (4, 0x31)]

/-- A Halted state. -/
def stopped : State := takeFault (small 0x10FD []) (loadFault 0x10FD)

/-! ## WellFormed -/

theorem test_wf_immediate_bounds : (Instr.addi 1 2 (sext12 0x7FF)).wf = true ∧ (Instr.addi 1 2 (sext12 0x800)).wf = true := by
  decide
theorem test_wf_refuses_2048 : (Instr.addi 1 2 2048).wf = false := by decide
theorem test_wf_refuses_minus_2049 : (Instr.addi 1 2 0xFFFFFFFFFFFFF7FF).wf = false := by decide

/-! ## Decode: words written out field by field (30_encoding.md R92, R93, R103) -/

/-- ADDI x31, x0, 42: imm 000000101010, rs1 00000, funct3 000, rd 11111, opcode 0010011 (D-1). -/
theorem test_decode_addi_bits : decodeWord 0b00000010101000000000111110010011 = .instr (.addi 31 0 42) := by decide
/-- ADD x1, x2, x3: funct7 0000000, rs2 00011, rs1 00010, funct3 000, rd 00001, opcode 0110011 (D-5). -/
theorem test_decode_add_bits : decodeWord 0b00000000001100010000000010110011 = .instr (.add 1 2 3) := by decide
/-- D-2: the most negative immediate. -/
theorem test_decode_addi_negative : decodeWord 0x80000293 = .instr (.addi 5 0 0xFFFFFFFFFFFFF800) := by decide
/-- D-8: funct3 is not examined. -/
theorem test_decode_andi_is_addi : decodeWord 0x0FF37293 = .instr (.addi 5 6 0xFF) := by decide
/-- D-7: funct7 is not examined. -/
theorem test_decode_mul_is_add : decodeWord 0x023100B3 = .instr (.add 1 2 3) := by decide
/-- IL-2. -/
theorem test_decode_all_ones : decodeWord 0xFFFFFFFF = .illegal 0x7F := by decide
/-- AI-9: ADDI x2, x2, -15. -/
theorem test_encode_addi : encode (.addi 2 2 (sext12 0xFF1)) = 0xFF110113 := by decide
/-- AR-2: ADD x7, x5, x5. -/
theorem test_encode_add : encode (.add 7 5 5) = 0x005283B3 := by decide
/-- D-10. -/
theorem test_encode_nop : encode asmNop = 0x00000013 := by decide
theorem test_decode_short_bytes : decodeBytes [0x13, 0, 0] = .error .tooShort := by decide
theorem test_table_word_addi : decodeTableWord 32 0x00000013 = some (.addi 0 0 0) := by decide
theorem test_table_word_add : decodeTableWord 32 0x00000033 = some (.add 0 0 0) := by decide

/-! ## Instructions -/

/-- AI-5: x5 = all ones, ADDI x6, x5, 1 wraps to 0. -/
theorem test_addi_wraps :
    (nextOf (exec (.addi 6 5 1) (writeReg State.reset 5 0xFFFFFFFFFFFFFFFF))).map (fun t => (readReg t 6, t.pc)) =
      some (0, 4) := by decide
/-- AI-9, from the word: x2 = 0x07FF_FFFF, ADDI x2, x2, -15. -/
theorem test_addi_steps_from_reset :
    (nextOf (step (withWord 0xFF110113))).map (fun t => (readReg t 2, t.pc, t.run)) =
      some (0x07FFFFF0, 4, .running) := by decide
/-- AR-3: the sum of two most negative numbers wraps to 0. -/
theorem test_add_wraps :
    (nextOf (exec (.add 1 2 3) (writeReg (writeReg State.reset 2 0x8000000000000000) 3 0x8000000000000000))).map
      (fun t => readReg t 1) = some 0 := by decide
/-- L3-3 at 0x10: RISC-V's SUB x1, x2, x3 adds. -/
theorem test_add_steps_from_reset :
    (nextOf (step (withWord 0x403100B3))).map (fun t => (readReg t 1, t.pc, t.run)) =
      some (0x07FFFFFF, 4, .running) := by decide

/-! ## Illegal words, fetch, LSU, reset -/

/-- IL-3: ECALL halts with IllegalInstruction(0x73), the pc and registers unchanged. -/
theorem test_ecall_is_illegal :
    nextOf (step (withWord 0x00000073)) =
      some (takeFault (withWord 0x00000073) { kind := .illegalInstruction, value := 0x73 }) := by decide
/-- F-7: bytes 13 01 A0 00 at 2, no alignment fault. -/
theorem test_fetch_misaligned :
    fetch { State.resetWith Params.reference (imageCells 0 [0, 0, 0x13, 0x01, 0xA0]) with pc := 2 } = .ok 0x00A00113 := by
  decide
/-- F-3: passes BUS, fails the bound of MEM. -/
theorem test_fetch_last_three_bytes : fetch { State.reset with pc := 0x07FFFFFD } = .error (loadFault 0x07FFFFFD) := by
  decide
/-- F-8. -/
theorem test_fetch_below_base : fetch (small 0xFFC []) = .error (loadFault 0xFFC) := by decide
/-- M-1 then M-5. -/
theorem test_store_then_misaligned_load :
    (match lsuStore State.reset 0x100 64 0x1122334455667788 with
      | .ok t => lsuLoad t 0xFF 64
      | .error f => .error f) = .ok 0x2233445566778800 := by decide
/-- M-9: the store fails as a whole. -/
theorem test_store_across_end : lsuStore State.reset 0x07FFFFFF 16 0xABCD = .error (storeFault 0x07FFFFFF) := by decide
/-- M-11. -/
theorem test_load_size_24 : lsuLoad State.reset 0x100 24 = .error (loadFault 0x100) := by decide
/-- M-12. -/
theorem test_store_size_0 : lsuStore State.reset 0x100 0 5 = .error (storeFault 0x100) := by decide
/-- Z-2. -/
theorem test_reset_from_image :
    (match construct Params.reference [0x93, 0x0F, 0xA0, 0x02, 0x13, 0x01] with
      | .ok s => lsuLoad s 4 32
      | .error _ => .ok 0) = .ok 0x00000113 := by decide
/-- Z-4. -/
theorem test_image_too_long :
    construct (params 0 16) (List.replicate 17 1) = .error .imageTooLong := by decide
/-- Z-5. -/
theorem test_reset_at_other_base :
    (State.resetWith (params 0x80000000 0x08000000) []).pc = 0x80000000 ∧
    readReg (State.resetWith (params 0x80000000 0x08000000) []) 2 = 0x07FFFFFF := by decide
/-- 60_exceptions.md R190: the codes of the raised kinds. -/
theorem test_codes :
    (faultCode .illegalInstruction, faultCode .loadAccessFault, faultCode .storeAMOAccessFault) = (2, 5, 7) := by decide
/-- 10_state.md R24. -/
theorem test_names : regNames.length = 32 ∧ regNames.getD 2 "" = "sp" ∧ regNames.getD 31 "" = "t6" := by decide

/-! ## Witnesses, one or more per statement with hypotheses -/

theorem witness_StepIsExecOfTheFetchedInstruction :
    adding.run = .running ∧ adding.cfg.covers adding.pc 4 ∧
    decodeBytes [byteAtPc adding 0, byteAtPc adding 1, byteAtPc adding 2, byteAtPc adding 3] =
      .ok (.add 1 2 3, []) := by decide
/-- The last word of the bank is fetched too (F-9). -/
theorem witness_StepIsExecOfTheFetchedInstruction_at_end :
    (small 0x10FC [(0xFC, 0x13)]).cfg.covers (small 0x10FC [(0xFC, 0x13)]).pc 4 ∧
    decodeBytes [byteAtPc (small 0x10FC [(0xFC, 0x13)]) 0, 0, 0, 0] = .ok (.addi 0 0 0, []) := by decide
theorem witness_StepFollowsTheExecutionLoop :
    (small 0x10FD []).run = .running ∧ fetch (small 0x10FD []) = .error (loadFault 0x10FD) ∧
    fetch (small 0x10FC []) = .ok 0 ∧ decodeWord 0 = .illegal 0 ∧
    fetch adding = .ok 0x003100B3 ∧ decodeWord 0x003100B3 = .instr (.add 1 2 3) := by decide
theorem witness_AddiSetsRdToSumWithImmediate : (0xFFFFFF93#32).toNat % 128 = 0x13 := by decide
theorem witness_AddSetsRdToSumOfRegisters : (0xFFFFFFB3#32).toNat % 128 = 0x33 := by decide
theorem witness_AluInstructionsChangeOnlyRdAndPc : (5 : RegIx) ≠ destOf (.add 1 2 3) ∨ (5 : RegIx) = 0 := by decide
theorem witness_AluInstructionsChangeOnlyRdAndPc_x0 : (0 : RegIx) ≠ destOf (.add 0 2 3) ∨ (0 : RegIx) = 0 := by decide
theorem witness_SourcesAreReadBeforeRdIsWritten : (31 : RegIx) ≠ 0 := by decide
theorem witness_X0AlwaysReadsZero : (1 : RegIx) ≠ 0 := by decide
theorem witness_PortDataPathIsExec :
    decodeWord 0x003100B3 = .instr (.add 1 2 3) ∧ decodeWord 0x02A00F93 = .instr (.addi 31 0 42) ∧
    decodeWord 0x00000073 = .illegal 0x73 := by decide
theorem witness_OtherOpcodesRaiseIllegalInstruction :
    (withWord 0x00000034).run = .running ∧ fetch (withWord 0x00000034) = .ok 0x34 ∧
    (0x34#32).toNat % 128 ≠ 0x13 ∧ (0x34#32).toNat % 128 ≠ 0x33 := by decide
theorem witness_UnexaminedBitsDoNotMatter :
    (0x0FF37293#32).toNat % 128 = 0x13 ∧ (0x403100B3#32).toNat % 128 = 0x33 ∧
    (0x00000073#32).toNat % 128 ≠ 0x13 ∧ (0x00000073#32).toNat % 128 ≠ 0x33 := by decide
theorem witness_CompressedWordsAreIllegal : (0x00000001#32).toNat % 4 ≠ 3 ∧ (0xFFFFFFFE#32).toNat % 4 ≠ 3 := by decide
theorem witness_DecodeOfEncodeIsTheInstruction :
    (Instr.addi 31 0 (sext12 0x800)).wf = true ∧ (Instr.add 31 31 31).wf = true := by decide
theorem witness_EncodeOfDecodeKeepsExaminedBits :
    decodeWord 0x403100B3 = .instr (.add 1 2 3) ∧ decodeWord 0x80000293 = .instr (.addi 5 0 0xFFFFFFFFFFFFF800) := by
  decide
theorem witness_FetchReadsFourBytesExactlyInsideTheBank :
    (small 0x10FC []).cfg.covers 0x10FC 4 ∧ ¬ (small 0x10FD []).cfg.covers 0x10FD 4 ∧
    (small 0x1000 []).cfg.covers 0x1000 4 ∧ ¬ (small 0xFFF []).cfg.covers 0xFFF 4 := by decide
theorem witness_FetchFaultIsTheBusFault : fetch (small 0x10FD []) = .error (loadFault 0x10FD) := by decide
theorem witness_StepDependsOnTheFetchedWordOnly :
    adding.cfg.covers adding.pc 4 ∧
    (∀ k < 4, byteAtPc (adding.setMem [(1, 7), (2, 0xB3), (4, 0x31), (6, 9)]) k = byteAtPc adding k) ∧
    step adding = .next (retire adding 1 (readReg adding 2 + readReg adding 3)) :=
  ⟨by decide, by decide, rfl⟩
theorem witness_PcAdvancesByFourOrStaysOnFault :
    step adding = .next (retire adding 1 (readReg adding 2 + readReg adding 3)) ∧
    step (small 0x10FD []) = .next stopped := ⟨rfl, rfl⟩
theorem witness_FetchPortsShowTheFetch :
    adding.run = .running ∧ (fuOut adding).word = some 0x003100B3 ∧ stopped.run = .halted ∧
    (fuOut (small 0x10FD [])).fault = some (loadFault 0x10FD) := by decide
theorem witness_BusDelegatesInRangeAndFaultsOutside :
    ((0x1000#64).toNat ≤ (0x10FF#64).toNat ∧ (0x10FF#64).toNat < (0x1000#64).toNat + 0x100) ∧
    ((0xFFF#64).toNat < (0x1000#64).toNat ∨ (0x1000#64).toNat + 0x100 ≤ (0xFFF#64).toNat) ∧
    ((0x1100#64).toNat < (0x1000#64).toNat ∨ (0x1000#64).toNat + 0x100 ≤ (0x1100#64).toNat) := by decide
theorem witness_AccessFaultsNameDirectionAndAddress :
    busLoad (small 0x10FD []) 0x10FD 32 = .error (loadFault 0x10FD) ∧
    lsuLoad (small 0x10FD []) 0x1100 8 = .error (loadFault 0x1100) ∧
    fetch (small 0x10FD []) = .error (loadFault 0x10FD) ∧
    busStore (small 0x10FD []) 0x10FF 16 1 = .error (storeFault 0x10FF) ∧
    lsuStore (small 0x10FD []) 0xFFF 8 1 = .error (storeFault 0xFFF) := by decide
theorem witness_OtherSizesFault : (24 : Nat) ≠ 8 ∧ (24 : Nat) ≠ 16 ∧ (24 : Nat) ≠ 32 ∧ (24 : Nat) ≠ 64 := by decide
theorem witness_AccessesTouchExactlyTheTargetedBytes :
    Memory.wf adding.mem ∧
    (busCycle adding { req := true, we := true, addr := 0x10FF, size := 8, wdata := 5 }).1.fault = none ∧
    (busCycle adding { req := true, we := true, addr := 0x10FF, size := 16, wdata := 5 }).1.fault ≠ none ∧
    (busCycle adding { req := true, we := false, addr := 0x1100, size := 8, wdata := 0 }).1.fault ≠ none := by decide
/-- An address one past the bank, and a pc one below it. -/
theorem witness_AccessesTouchExactlyTheTargetedBytes_outside :
    (adding.cfg.memBase.toNat + adding.cfg.memCapacity ≤ (0x1100#64).toNat) ∧
    (small 0xFFF []).pc.toNat < (small 0xFFF []).cfg.memBase.toNat ∧ Memory.wf (small 0xFFF []).mem := by decide
theorem witness_LsuLoadAssemblesBytesLittleEndian :
    lsuLoad adding 0x1002 32 = .ok 0x003100B3 ∧ lsuLoad adding 0x10F9 64 = .error (loadFault 0x10F9) := by decide
theorem witness_LsuStoreWritesLowBytesLittleEndian :
    Memory.wf adding.mem ∧ lsuStore adding 0x10F8 64 0 = .ok adding ∧
    lsuStore adding 0x10F9 64 0 = .error (storeFault 0x10F9) := by decide
theorem witness_LoadAfterStoreReturnsTheValue :
    Memory.wf adding.mem ∧
    lsuStore adding 0x1002 8 0x1FF = .ok (adding.setMem [(2, 0xFF), (4, 0x31)]) := by decide
theorem witness_NarrowLoadsReadPartsOfAWideStore :
    (small 0x1000 []).cfg.legal = true ∧ Memory.wf (small 0x1000 []).mem ∧
    lsuStore (small 0x1000 []) 0x10F8 64 0x88 = .ok (small 0x1000 [(0xF8, 0x88)]) ∧ 7 + 1 ≤ 8 := by decide
theorem witness_RepeatedStoreIsIdempotent :
    Memory.wf adding.mem ∧ lsuStore adding 0x1004 8 0 = .ok (adding.setMem [(2, 0xB3)]) ∧
    lsuLoad adding 0x1004 8 = .ok 0x31 := by decide
theorem witness_NextFetchSeesTheStore :
    Memory.wf (small 0x10FC []).mem ∧
    lsuStore (small 0x10FC []) 0x10FC 32 0x13 = .ok (small 0x10FC [(0xFC, 0x13)]) ∧
    (small 0x10FC []).run = .running ∧ (small 0x10FC []).cfg.covers 0x10FC 4 ∧
    decodeWord 0x13 = .instr (.addi 0 0 0) := by decide
theorem witness_BytesHoldTheLastWriteInOrder :
    Memory.wf adding.mem ∧
    lastByte adding.cfg 2 0xB3 [.lsuStore 0x1002 8 5, .step, .lsuStore 0x1001 16 0x0600, .lsuStore 0x1002 24 9] = 6 := by
  decide
theorem witness_LsuRequestsLeaveTheCoreAlone :
    (lsuCycle adding { req := true, we := false, addr := 0x1002, size := 8, wdata := 0 }).1.rdata = some 0xB3 := by decide
/-- A store at the last byte of the bank is served; one byte wider it faults, as does the load. -/
theorem witness_LsuRequestsLeaveTheCoreAlone_ports :
    lsuStore adding 0x10FF 8 5 = .ok (adding.setMem [(2, 0xB3), (4, 0x31), (0xFF, 5)]) ∧
    lsuStore adding 0x10FF 16 5 = .error (storeFault 0x10FF) ∧
    (lsuCycle adding { req := true, we := false, addr := 0x10FF, size := 16, wdata := 0 }).1.fault =
      some (loadFault 0x10FF) := by decide
theorem witness_NoStepWritesMemory : step (small 0x10FD []) = .next stopped := rfl
theorem witness_FaultingStepChangesOnlyLatchAndRun :
    step (small 0x10FD []) = .next stopped ∧ stopped.run = .halted := ⟨rfl, rfl⟩
/-- A kind that is not fatal in this construction. -/
theorem witness_EveryFaultHaltsFatalOrNot :
    (small 0x10FD []).run = .running ∧ fetch (small 0x10FD []) = .error (loadFault 0x10FD) ∧
    isFatal (small 0x10FD []).cfg (loadFault 0x10FD).kind = false := by decide
theorem witness_EveryFaultHaltsFatalOrNot_illegal :
    fetch (small 0x10FC []) = .ok 0 ∧ decodeWord 0 = .illegal 0 ∧ isFatal (small 0x10FC []).cfg .illegalInstruction = true := by
  decide
theorem witness_OnlyThreeKindsAreRaised :
    step (small 0x10FD []) = .next stopped ∧ stopped.run = .halted ∧ stopped.flt = some (loadFault 0x10FD) ∧
    (lsuCycle adding { req := true, we := true, addr := 0xFFF, size := 8, wdata := 0 }).1.fault =
      some (storeFault 0xFFF) := ⟨rfl, rfl, rfl, by decide⟩
theorem witness_HaltedIsTerminal : stopped.run = .halted := rfl
theorem witness_FaultLatchIsNeverCleared :
    stopped.latchAgrees ∧ stopped.flt = some (loadFault 0x10FD) ∧
    adding.latchAgrees ∧ (serveAll [.readPc] adding).run = .running := by decide
theorem witness_StepStopsExactlyWhenHalted : adding.run = .running ∧ stopped.run = .halted := ⟨rfl, rfl⟩
theorem witness_FaultPortsShowTheLatch :
    stopped.latchAgrees ∧ stopped.flt = some (loadFault 0x10FD) ∧ adding.latchAgrees ∧
    adding.flt = none := by decide
theorem witness_FatalPredicateIsAnyWithTwoKindsFatal :
    (fltOut (takeFault adding (illegalFault 0x73))).shown =
      some { kind := .illegalInstruction, value := 0x73, code := 2, fatal := true } := by decide
/-- A construction in which LoadAccessFault alone of the open kinds is fatal, and one latched fault of it. -/
theorem witness_FatalPredicateIsAnyWithTwoKindsFatal_constructed :
    construct { params 0x1000 2 with fatal := FatalTable.ofPred (fun k => decide (k = .loadAccessFault)) } [] =
      .ok (State.resetWith { params 0x1000 2 with
        fatal := FatalTable.ofPred (fun k => decide (k = .loadAccessFault)) } []) ∧
    (fltOut (serveAll [.step] (State.resetWith { params 0x1000 2 with
        fatal := FatalTable.ofPred (fun k => decide (k = .loadAccessFault)) } []))).shown =
      some { kind := .loadAccessFault, value := 0x1000, code := 5, fatal := true } := by decide
/-- The image may fill the bank, and one byte more is too long. -/
theorem witness_ResetFromImageSetsAllState :
    (params 0x1000 2).legal = true ∧ [0x13#8, 0#8].length ≤ (params 0x1000 2).memCapacity ∧
    (params 0x1000 2).memCapacity < [0x13#8, 0#8, 0#8].length := by decide
theorem witness_ConstructionRefusesExactlyTheRest :
    construct (params 0xFFFFFFFFFFFFFFFF 1) [7] =
      .ok (State.resetWith (params 0xFFFFFFFFFFFFFFFF 1) [(0, 7)]) ∧
    construct (params 0xFFFFFFFFFFFFFFFF 2) [] = .error .badParameters ∧
    construct (params 0 0) [] = .error .badParameters := by decide
theorem witness_ResetIsTheReferenceConstruction : (1 : RegIx) ≠ 2 := by decide
theorem witness_EveryConstructedCoreMeetsTheInvariant :
    construct (params 0x1000 2) [0, 5] =
      .ok (State.resetWith (params 0x1000 2) [(1, 5)]) := by decide
theorem witness_reset_meets_the_invariant : State.reset.Inv := by decide
theorem witness_EveryStepKeepsTheInvariant :
    adding.Inv ∧ core.step adding = .next (retire adding 1 (readReg adding 2 + readReg adding 3)) :=
  ⟨by decide, rfl⟩
theorem witness_EveryRequestSequenceKeepsTheInvariant : adding.Inv ∧ stopped.Inv := by decide
theorem witness_HostRequestsChangeOnlyWhatTheyMay :
    HostRequest.lsuStore 0 8 0 ≠ .step ∧ ∀ a n v, HostRequest.step ≠ .lsuStore a n v :=
  ⟨by decide, fun _ _ _ h => by cases h⟩
/-- One witness for each reply: a step done, none in Halted, an LSU load and store that answer and that fault. -/
theorem witness_HostRequestsChangeOnlyWhatTheyMay_replies :
    step adding = .next (retire adding 1 (readReg adding 2 + readReg adding 3)) ∧ adding.run = .running ∧
    stopped.run = .halted ∧ lsuLoad stopped 0x10FF 8 = .ok 0 ∧ lsuLoad stopped 0x10FF 16 = .error (loadFault 0x10FF) ∧
    lsuStore stopped 0x10FF 8 0 = .ok stopped ∧ lsuStore stopped 0x10FF 16 0 = .error (storeFault 0x10FF) :=
  ⟨rfl, by decide, by decide, by decide, by decide, by decide, by decide⟩
theorem witness_ZeroWordHaltsWithIllegalInstruction :
    (small 0x10FC []).run = .running ∧ (small 0x10FC []).cfg.covers (small 0x10FC []).pc 4 ∧
    (∀ k < 4, byteAtPc (small 0x10FC []) k = 0) ∧
    construct (params 0x1000 4) [] =
      .ok (State.resetWith (params 0x1000 4) []) := by decide
/-- The bound is the whole space less one byte, and a bank that ends at the top of the space. -/
theorem witness_EveryRunHaltsWithinTheCapacityBound :
    (State.resetWith (params 0 18446744073709551615) []).cfg.legal = true ∧
    ¬ (State.resetWith (params 0 18446744073709551615) []).cfg.wholeSpace ∧
    (State.resetWith (params 4 18446744073709551612) []).cfg.legal = true ∧
    ¬ (State.resetWith (params 4 18446744073709551612) []).cfg.wholeSpace := by decide
theorem witness_FetchedAluWordsStepToTheirSums :
    (withWord 0x02A00F93).run = .running ∧
    fetch (withWord 0x02A00F93) = .ok (0x02A#12 ++ 0#5 ++ 0#3 ++ 31#5 ++ 0x13#7) ∧
    fetch (withWord 0x403100B3) = .ok (0x20#7 ++ 3#5 ++ 2#5 ++ 0#3 ++ 1#5 ++ 0x33#7) := by decide

end Sys2Proof.Tests
end

section
/-! SUPPORT. The statements about the CORE's state (10_state.md): x0 and the Halted state. -/

namespace Sys2Proof.Machine

/-! ## Any list of host requests -/

/-- What every served request keeps, any list of requests keeps. -/
theorem serveAll_keeps {P : State → Prop} (hserve : ∀ r s, P s → P (serve r s).2) (rs : List HostRequest)
    {s : State} (hs : P s) : P (serveAll rs s) := by
  induction rs generalizing s with
  | nil => exact hs
  | cons r rs ih => exact ih (hserve r s hs)

/-! ## x0 (R21) -/

/-- A write to a register other than x0 is seen there and nowhere else. -/
theorem readReg_writeReg_of_ne_zero (s : State) {i : RegIx} (hi : i ≠ 0#5) (r : RegIx) (v : Word) :
    readReg (writeReg s i v) r = if r = i then v else readReg s r := by
  rw [readReg_writeReg]
  by_cases hr : r = 0#5
  · subst hr
    rw [if_pos rfl, if_neg (Ne.symm hi), readReg_zero]
  · rw [if_neg hr]

theorem step_zero_cell {s t : State} (h : step s = .next t) : t.regs[0] = s.regs[0] := by
  obtain ⟨-, ⟨f, rfl⟩ | ⟨rd, v, rfl⟩⟩ := step_next_cases h
  · rfl
  · exact rfWrite_zero_cell s.regs rd v

theorem serve_zero_cell (r : HostRequest) (s : State) : (serve r s).2.regs[0] = s.regs[0] := by
  rcases serve_cases r s with hsame | hstep | ⟨a, n, v, -, -, hstore⟩
  · rw [hsame]
  · exact step_zero_cell hstep
  · rw [hstore, setMem_regs]

theorem serveAll_zero_cell (rs : List HostRequest) (s : State) : (serveAll rs s).regs[0] = s.regs[0] :=
  serveAll_keeps (P := fun t => t.regs[0] = s.regs[0]) (fun r t ht => (serve_zero_cell r t).trans ht) rs rfl

/-- Settles O8: the reads and writes by the register laws, and the cell behind x0 by what a step and a store can do. -/
theorem x0AlwaysReadsZero : Obligations.X0AlwaysReadsZero := by
  refine ⟨fun s => ⟨readReg_zero s, writeReg_x0 s⟩, fun s i r v hi => readReg_writeReg_of_ne_zero s hi r v,
    fun rs s => ⟨?_, serveAll_zero_cell rs s⟩⟩
  exact congrArg HostReply.value (readReg_zero (serveAll rs s))

/-! ## Halted (R28) -/

theorem step_ne_next_of_halted {s : State} (h : s.run = .halted) (t : State) : step s ≠ .next t := by
  rw [step_of_halted h]
  exact nofun

/-- In Halted a request reaches the bank's contents only. -/
theorem serve_of_halted {s : State} (h : s.run = .halted) (r : HostRequest) :
    ∃ m, (serve r s).2 = s.setMem m := by
  rcases serve_cases r s with hsame | hstep | ⟨a, n, v, -, -, hstore⟩
  · exact ⟨s.mem, hsame⟩
  · exact absurd hstep (step_ne_next_of_halted h _)
  · exact ⟨_, hstore⟩

theorem serveAll_of_halted {s : State} (h : s.run = .halted) (rs : List HostRequest) :
    ∃ m, serveAll rs s = s.setMem m := by
  refine serveAll_keeps (P := fun t => ∃ m, t = s.setMem m) ?_ rs ⟨s.mem, rfl⟩
  rintro r _ ⟨m, rfl⟩
  exact serve_of_halted (s := s.setMem m) h r

/-- Settles O41: what any requests make of a Halted state differs from it in the bank's contents only. -/
theorem haltedIsTerminal : Obligations.HaltedIsTerminal := by
  refine fun s h => ⟨step_ne_next_of_halted h, fun rs => ?_⟩
  obtain ⟨m, hm⟩ := serveAll_of_halted h rs
  rw [hm]
  exact ⟨h, rfl, rfl, rfl⟩

end Sys2Proof.Machine
end

section
/-! SUPPORT. The statements about MEM and BUS (20_memory.md): who answers an access, what a fault names, and what an
access changes. -/

namespace Sys2Proof.Machine

/-! ## In range and outside (R61, R62) -/

theorem busLoad_of_inRange {s : State} {addr : Word} (h : inRange s.cfg addr = true) (size : Nat) :
    busLoad s addr size = memLoad s addr size := if_pos h

theorem busStore_of_inRange {s : State} {addr : Word} (h : inRange s.cfg addr = true) (size : Nat) (v : Word) :
    busStore s addr size v = memStore s addr size v := if_pos h

/-- An access at an address outside the bank is not served, whatever its size. -/
theorem not_served_of_outside {p : Params} {addr : Word}
    (h : addr.toNat < p.memBase.toNat ∨ p.memBase.toNat + p.memCapacity ≤ addr.toNat) (size : Nat) :
    ¬ Served p addr size := fun ⟨_, hr, _⟩ => by
  obtain ⟨hle, hlt⟩ := (inRange_iff p addr).1 hr
  omega

/-- Settles O24: in range BUS is MEM by its own branch, and an access outside is not served. -/
theorem busDelegatesInRangeAndFaultsOutside : Obligations.BusDelegatesInRangeAndFaultsOutside := by
  refine fun s a v size => ⟨fun hin => ?_, fun hout => ?_⟩
  · have hr := (inRange_iff s.cfg a).2 hin
    exact ⟨busLoad_of_inRange hr size, busStore_of_inRange hr size v⟩
  · have hn := not_served_of_outside hout size
    exact ⟨busLoad_of_not_served hn, busStore_of_not_served hn v⟩

/-! ## What an access fault names (R65, R66) -/

theorem busLoad_error {s : State} {addr : Word} {size : Nat} {f : FaultRecord}
    (h : busLoad s addr size = .error f) : f = loadFault addr := by
  rcases busLoad_cases s addr size with ⟨-, e⟩ | ⟨-, e⟩
  · rw [e] at h; cases h
  · rw [e] at h; cases h; rfl

theorem busStore_error {s : State} {addr : Word} {size : Nat} {v : Word} {f : FaultRecord}
    (h : busStore s addr size v = .error f) : f = storeFault addr := by
  rcases busStore_cases s addr size v with ⟨-, e⟩ | ⟨-, e⟩
  · rw [e] at h; cases h
  · rw [e] at h; cases h; rfl

theorem fetch_error {s : State} {f : FaultRecord} (h : fetch s = .error f) : f = loadFault s.pc := by
  rcases fetch_cases s with ⟨-, e⟩ | ⟨-, e⟩
  · rw [e] at h; cases h
  · rw [e] at h; cases h; rfl

/-- Settles O25: LSU passes BUS's answer on, so its faults are those of BUS. -/
theorem accessFaultsNameDirectionAndAddress : Obligations.AccessFaultsNameDirectionAndAddress :=
  fun _ _ _ _ _ => ⟨busLoad_error, busLoad_error, fetch_error, busStore_error, busStore_error⟩

/-! ## What an access changes (R59) -/

theorem fetch_of_not_served {s : State} (h : ¬ Served s.cfg s.pc 32) : fetch s = .error (loadFault s.pc) := by
  rw [fetch, busLoad_of_not_served h]

/-- All a request at the BUS ports can do (R67): nothing without a request, an answered load, a store that changes
the bank, or the fault of the request's direction. -/
theorem busCycle_cases (s : State) (q : BusIn) :
    (q.req = false ∧ busCycle s q = ({ rdata := none, fault := none }, s)) ∨
    (q.req = true ∧ q.we = false ∧ Served s.cfg q.addr q.size ∧ busCycle s q =
      ({ rdata := some (bankRead s.mem (bankIndex s.cfg q.addr) (q.size / 8)), fault := none }, s)) ∨
    (q.req = true ∧ q.we = true ∧ Served s.cfg q.addr q.size ∧ busCycle s q =
      ({ rdata := none, fault := none },
        s.setMem (bankWrite s.mem (bankIndex s.cfg q.addr) q.wdata (q.size / 8)))) ∨
    (q.req = true ∧ ¬ Served s.cfg q.addr q.size ∧ busCycle s q =
      ({ rdata := none, fault := some (if q.we then storeFault q.addr else loadFault q.addr) }, s)) := by
  cases hreq : q.req with
  | false => exact .inl ⟨rfl, by simp [busCycle, hreq]⟩
  | true =>
    refine .inr ?_
    cases hwe : q.we with
    | false =>
      rcases busLoad_cases s q.addr q.size with ⟨h, e⟩ | ⟨h, e⟩
      · exact .inl ⟨rfl, rfl, h, by simp [busCycle, hreq, hwe, e]⟩
      · exact .inr (.inr ⟨rfl, h, by simp [busCycle, hreq, hwe, e]⟩)
    | true =>
      rcases busStore_cases s q.addr q.size q.wdata with ⟨h, e⟩ | ⟨h, e⟩
      · exact .inr (.inl ⟨rfl, rfl, h, by simp [busCycle, hreq, hwe, e]⟩)
      · exact .inr (.inr ⟨rfl, h, by simp [busCycle, hreq, hwe, e]⟩)

theorem busCycle_state_of_load (s : State) {q : BusIn} (hwe : q.we = false) : (busCycle s q).2 = s := by
  rcases busCycle_cases s q with ⟨-, e⟩ | ⟨-, -, -, e⟩ | ⟨-, h, -, -⟩ | ⟨-, -, e⟩
  · rw [e]
  · rw [e]
  · rw [hwe] at h; cases h
  · rw [e]

theorem busCycle_state_of_fault {s : State} {q : BusIn} (hf : (busCycle s q).1.fault ≠ none) :
    (busCycle s q).2 = s := by
  rcases busCycle_cases s q with ⟨-, e⟩ | ⟨-, -, -, e⟩ | ⟨-, -, -, e⟩ | ⟨-, -, e⟩
  · rw [e]
  · rw [e]
  · rw [e] at hf; exact absurd rfl hf
  · rw [e]

/-- A request faults exactly when it is not served. -/
theorem busCycle_fault_iff (s : State) {q : BusIn} (hreq : q.req = true) :
    (busCycle s q).1.fault ≠ none ↔ ¬ Served s.cfg q.addr q.size := by
  rcases busCycle_cases s q with ⟨h, -⟩ | ⟨-, -, h, e⟩ | ⟨-, -, h, e⟩ | ⟨-, h, e⟩
  · rw [hreq] at h; cases h
  · simp [e, h]
  · simp [e, h]
  · simp [e, h]

theorem busCycle_state_of_store {s : State} {q : BusIn} (hreq : q.req = true) (hwe : q.we = true)
    (hs : Served s.cfg q.addr q.size) :
    (busCycle s q).2 = s.setMem (bankWrite s.mem (bankIndex s.cfg q.addr) q.wdata (q.size / 8)) := by
  simp [busCycle, hreq, hwe, busStore_of_served hs]

/-- Settles O28: a store's bytes are those of the bank write at the served address; every other request keeps the
state. -/
theorem accessesTouchExactlyTheTargetedBytes : Obligations.AccessesTouchExactlyTheTargetedBytes := by
  refine fun s q hm => ⟨busCycle_state_of_load s, busCycle_state_of_fault,
    fun hreq hout => (busCycle_fault_iff s hreq).2 (not_served_of_outside hout _),
    fun hout => fetch_of_not_served (not_served_of_outside hout 32), fun hreq hwe hok => ?_⟩
  have hs : Served s.cfg q.addr q.size := by
    by_contra hn
    exact (busCycle_fault_iff s hreq).2 hn hok
  rw [busCycle_state_of_store hreq hwe hs, bankIndex_of_served hs]
  exact ⟨rfl, fun a => get_bankWrite hm _ q.wdata _ a⟩

end Sys2Proof.Machine
end

section
/-! SUPPORT. The statements about the decoder (30_encoding.md): the opcode as a number, and what an opcode without an
instruction does. -/

namespace Sys2Proof.Machine

/-! ## The opcode as a number (R91, R97) -/

theorem fieldOpcode_toNat (w : InstrWord) : (fieldOpcode w).toNat = w.toNat % 128 := by
  rw [fieldOpcode, BitVec.extractLsb'_toNat, Nat.shiftRight_zero]

theorem fieldOpcode_ne_of_toNat {w : InstrWord} {c : BitVec 7} (h : w.toNat % 128 ≠ c.toNat) : fieldOpcode w ≠ c :=
  fun e => h (by rw [← fieldOpcode_toNat, e])

theorem fieldOpcode_setWidth (w : InstrWord) :
    (fieldOpcode w).setWidth 64 = BitVec.ofNat 64 (w.toNat % 128) := by
  rw [← fieldOpcode_toNat, BitVec.ofNat_toNat]

/-- The illegal words by number: every opcode but ADDI's and ADD's (R97). -/
theorem decodeWord_of_other_toNat {w : InstrWord} (h1 : w.toNat % 128 ≠ 0x13) (h2 : w.toNat % 128 ≠ 0x33) :
    decodeWord w = .illegal (BitVec.ofNat 64 (w.toNat % 128)) := by
  rw [decodeWord_of_other (fieldOpcode_ne_of_toNat h1) (fieldOpcode_ne_of_toNat h2), fieldOpcode_setWidth]

/-- Settles O12: such a word decodes to ILLEGAL with its opcode, and the step takes that fault. -/
theorem otherOpcodesRaiseIllegalInstruction : Obligations.OtherOpcodesRaiseIllegalInstruction :=
  fun _ _ hrun hfetch h1 h2 => step_of_illegal hrun hfetch (decodeWord_of_other_toNat h1 h2)

end Sys2Proof.Machine
end

section
/-! SUPPORT. The statements about the fetch unit and the execution loop (40_fetch_unit.md): which fault a fetch raises,
and what a step makes of the fetched word and of the pc. -/

namespace Sys2Proof.Machine

/-! ## The fetch fault (R122) -/

/-- FU passes a bus fault on and raises none of its own. -/
theorem fetch_eq_error_iff {s : State} {f : FaultRecord} : fetch s = .error f ↔ busLoad s s.pc 32 = .error f := by
  cases h : busLoad s s.pc 32 with
  | ok r => simp [fetch, h]
  | error g => simp [fetch, h]

/-- Settles O20: a fetch faults as its bus load does, and that fault names a load at the pc. -/
theorem fetchFaultIsTheBusFault : Obligations.FetchFaultIsTheBusFault := by
  refine fun s => ⟨fun f => fetch_eq_error_iff, fun f hf => ?_⟩
  obtain rfl : f = loadFault s.pc := fetch_error hf
  exact ⟨rfl, rfl⟩

/-! ## The execution loop (R127) -/

theorem step_of_instr {s : State} (h : s.run = .running) {w : InstrWord} (hf : fetch s = .ok w) {i : Instr}
    (hd : decodeWord w = .instr i) : step s = exec i s := by
  simp [step, cycle, decodeCycle, h, hf, hd]

/-- Settles O2: a fault is taken as it is raised, and a decoded instruction retires its result. -/
theorem stepFollowsTheExecutionLoop : Obligations.StepFollowsTheExecutionLoop := by
  refine fun s hrun => ⟨fun f hf => step_of_fetch_fault hrun hf,
    fun w hf => ⟨fun v hd => step_of_illegal hrun hf hd, fun i hd => ?_⟩⟩
  obtain ⟨rd, v, he⟩ := exec_retires i s
  have hstep : step s = .next (retire s rd v) := (step_of_instr hrun hf hd).trans he
  exact ⟨retire s rd v, he, hstep, retire_pc s rd v, hrun, retire_flt s rd v⟩

/-! ## The pc (R130) -/

/-- Settles O23: a step that retires writes pc + 4, and a step that takes a fault leaves the pc. -/
theorem pcAdvancesByFourOrStaysOnFault : Obligations.PcAdvancesByFourOrStaysOnFault := by
  intro s t h
  obtain ⟨hrun, ⟨f, rfl⟩ | ⟨rd, v, rfl⟩⟩ := step_next_cases h
  · exact .inr ⟨takeFault_run s f, rfl, takeFault_pc s f⟩
  · exact .inl ⟨hrun, retire_flt s rd v, retire_pc s rd v⟩

end Sys2Proof.Machine
end

section
/-! SUPPORT. The statements about the ALU instructions (41_integer_alu.md): which words they are, what each writes, and
what it leaves as it was. -/

namespace Sys2Proof.Machine

/-! ## The words of ADDI and ADD (R91, R96) -/

theorem fieldOpcode_eq_of_toNat {w : InstrWord} {c : BitVec 7} (h : w.toNat % 128 = c.toNat) : fieldOpcode w = c :=
  BitVec.eq_of_toNat_eq ((fieldOpcode_toNat w).trans h)

/-! ## The result of each (R151, R152) -/

theorem exec_addi (rd rs1 : RegIx) (imm : Word) (s : State) :
    exec (.addi rd rs1 imm) s = .next (retire s rd (readReg s rs1 + imm)) := rfl

theorem exec_add (rd rs1 rs2 : RegIx) (s : State) :
    exec (.add rd rs1 rs2) s = .next (retire s rd (readReg s rs1 + readReg s rs2)) := rfl

/-- Retiring a sum shows it in rd as the sum of the numbers modulo 2^64, and keeps all but rd and the pc. -/
theorem retire_sum (s : State) (rd : RegIx) (a b : Word) :
    (∀ r, readReg (retire s rd (a + b)) r = if r = 0 then 0
      else if r = rd then BitVec.ofNat 64 (a.toNat + b.toNat) else readReg s r) ∧
    (retire s rd (a + b)).pc = s.pc + 4 ∧ (retire s rd (a + b)).run = s.run ∧ (retire s rd (a + b)).flt = s.flt ∧
    (retire s rd (a + b)).mem = s.mem ∧ (retire s rd (a + b)).cfg = s.cfg := by
  refine ⟨fun r => ?_, retire_pc s rd _, retire_run s rd _, retire_flt s rd _, retire_mem s rd _, retire_cfg s rd _⟩
  rw [readReg_retire, BitVec.add_def]
  rfl

/-- Settles O3: the opcode's number picks ADDI, and ADDI retires the sum. -/
theorem addiSetsRdToSumWithImmediate : Obligations.AddiSetsRdToSumWithImmediate :=
  ⟨fun w hw => ⟨fieldRd w, fieldRs1 w, decodeWord_of_addi (fieldOpcode_eq_of_toNat hw)⟩,
    fun rd rs1 imm s => ⟨_, exec_addi rd rs1 imm s, retire_sum s rd (readReg s rs1) imm⟩⟩

/-- Settles O4: the opcode's number picks ADD, and ADD retires the sum. -/
theorem addSetsRdToSumOfRegisters : Obligations.AddSetsRdToSumOfRegisters :=
  ⟨fun w hw => ⟨fieldRd w, fieldRs1 w, fieldRs2 w, decodeWord_of_add (fieldOpcode_eq_of_toNat hw)⟩,
    fun rd rs1 rs2 s => ⟨_, exec_add rd rs1 rs2 s, retire_sum s rd (readReg s rs1) (readReg s rs2)⟩⟩

/-! ## The frame (R154) -/

/-- Executing an instruction retires a result into its own destination. -/
theorem exec_retires_destOf (i : Instr) (s : State) : ∃ v, exec i s = .next (retire s (destOf i) v) := by
  cases i with
  | addi rd rs1 imm => exact ⟨_, exec_addi rd rs1 imm s⟩
  | add rd rs1 rs2 => exact ⟨_, exec_add rd rs1 rs2 s⟩

theorem readReg_retire_of_unwritten (s : State) {rd r : RegIx} (h : r ≠ rd ∨ r = 0#5) (v : Word) :
    readReg (retire s rd v) r = readReg s r := by
  rw [readReg_retire]
  by_cases hr : r = 0#5
  · rw [if_pos hr, hr, readReg_zero]
  · rw [if_neg hr, if_neg (h.resolve_right hr)]

/-- A bus load reads the parameters and the bank only. -/
theorem busLoad_congr {s t : State} (hcfg : t.cfg = s.cfg) (hmem : t.mem = s.mem) (addr : Word) (size : Nat) :
    busLoad t addr size = busLoad s addr size := by
  rw [busLoad, busLoad, memLoad, memLoad, hcfg, hmem]

/-- Settles O5: an instruction retires into its destination, and retiring keeps every other register, the bank and the
parameters. -/
theorem aluInstructionsChangeOnlyRdAndPc : Obligations.AluInstructionsChangeOnlyRdAndPc := by
  intro i s
  obtain ⟨v, hexec⟩ := exec_retires_destOf i s
  have hmem := retire_mem s (destOf i) v
  have hcfg := retire_cfg s (destOf i) v
  exact ⟨_, hexec, fun r hr => readReg_retire_of_unwritten s hr v, fun a => congrArg (Memory.get · a) hmem,
    busLoad_congr hcfg hmem, retire_run s _ v, retire_flt s _ v, hcfg⟩

end Sys2Proof.Machine
end

section
/-! SUPPORT. The statements about LSU (42_load_store_unit.md): the number a load assembles, the bytes a store writes. -/

namespace Sys2Proof.Machine

/-! ## A word and its bytes as numbers (R170, R171) -/

theorem byteOf_toNat (v : Word) (k : Nat) : (byteOf v k).toNat = v.toNat / 256 ^ k % 256 := by
  have h : 2 ^ (8 * k) = 256 ^ k := pow_mul 2 8 k
  simp [byteOf, Nat.shiftRight_eq_div_pow, h]

/-- The low `n` bytes of a word, as digits to the base 256. -/
theorem toNat_mod_eq_sum_byteOf (v : Word) (n : Nat) :
    v.toNat % 256 ^ n = ∑ k ∈ Finset.range n, (byteOf v k).toNat * 256 ^ k := by
  induction n with
  | zero => simp [Nat.mod_one]
  | succ n ih => rw [Nat.mod_pow_succ, Finset.sum_range_succ, ih, byteOf_toNat, Nat.mul_comm]

/-- The value of a bank read (R56): its bytes little-endian, zero-extended. -/
theorem bankRead_toNat (m : Memory) (index : Nat) {n : Nat} (hn : n ≤ 8) :
    (bankRead m index n).toNat = ∑ k ∈ Finset.range n, (Memory.get m (index + k)).toNat * 256 ^ k := by
  calc (bankRead m index n).toNat
      = (bankRead m index n).toNat % 256 ^ 8 := (Nat.mod_eq_of_lt (bankRead m index n).isLt).symm
    _ = ∑ k ∈ Finset.range 8, (byteOf (bankRead m index n) k).toNat * 256 ^ k := toNat_mod_eq_sum_byteOf _ 8
    _ = ∑ k ∈ Finset.range n, (byteOf (bankRead m index n) k).toNat * 256 ^ k := by
      refine (Finset.sum_subset (Finset.range_mono hn) fun k _ hk => ?_).symm
      rw [byteOf_bankRead m index hn, if_neg (by simpa using hk)]
      simp
    _ = _ := Finset.sum_congr rfl fun k hk => by
      rw [byteOf_bankRead m index hn, if_pos (Finset.mem_range.1 hk)]

theorem busLoad_ok {s : State} {addr v : Word} {size : Nat} (h : busLoad s addr size = .ok v) :
    Served s.cfg addr size ∧ v = bankRead s.mem (bankIndex s.cfg addr) (size / 8) := by
  rcases busLoad_cases s addr size with ⟨hs, e⟩ | ⟨-, e⟩
  · rw [e] at h; cases h; exact ⟨hs, rfl⟩
  · rw [e] at h; cases h

/-- Settles O29: LSU passes BUS's answer on, and a served load's value is that of the bank read. -/
theorem lsuLoadAssemblesBytesLittleEndian : Obligations.LsuLoadAssemblesBytesLittleEndian := by
  refine fun s a size => ⟨rfl, fun v hv => ?_, fun _ => busLoad_error⟩
  obtain ⟨hs, rfl⟩ := busLoad_ok hv
  rw [bankRead_toNat _ _ (legalSize_div hs.1).2.1, bankIndex_of_served hs]

/-! ## The bytes of a store (R171) -/

/-- A bank write depends on the low `n` bytes of the value only. -/
theorem bankWrite_congr (m : Memory) (index : Nat) {v w : Word} {n : Nat}
    (h : ∀ k < n, byteOf v k = byteOf w k) : bankWrite m index v n = bankWrite m index w n := by
  induction n with
  | zero => rfl
  | succ n ih => rw [bankWrite, bankWrite, ih fun k hk => h k (by omega), h n (by omega)]

/-- Cutting a word to `size` bits keeps the bytes below `size`. -/
theorem byteOf_mod_two_pow (v : Word) {size k : Nat} (hk : k < size / 8) :
    byteOf (BitVec.ofNat 64 (v.toNat % 2 ^ size)) k = byteOf v k := by
  refine BitVec.eq_of_getLsbD_eq fun i hi => ?_
  have hlow : 8 * k + i < size := by omega
  rw [byteOf_getLsbD _ _ _ hi, byteOf_getLsbD _ _ _ hi, BitVec.getLsbD_ofNat, Nat.testBit_mod_two_pow,
    BitVec.testBit_toNat]
  simpa [hlow] using BitVec.lt_of_getLsbD

theorem busStore_mod_two_pow (s : State) (addr v : Word) (size : Nat) :
    busStore s addr size (BitVec.ofNat 64 (v.toNat % 2 ^ size)) = busStore s addr size v := by
  by_cases hs : Served s.cfg addr size
  · rw [busStore_of_served hs, busStore_of_served hs, bankWrite_congr _ _ fun _ => byteOf_mod_two_pow v]
  · rw [busStore_of_not_served hs, busStore_of_not_served hs]

theorem busStore_ok {s t : State} {addr v : Word} {size : Nat} (h : busStore s addr size v = .ok t) :
    Served s.cfg addr size ∧ t = s.setMem (bankWrite s.mem (bankIndex s.cfg addr) v (size / 8)) := by
  rcases busStore_cases s addr size v with ⟨hs, e⟩ | ⟨-, e⟩
  · rw [e] at h; cases h; exact ⟨hs, rfl⟩
  · rw [e] at h; cases h

/-- The bytes a bank write targets are the value's. -/
theorem get_bankWrite_target {m : Memory} (hm : Memory.wf m) (index : Nat) (v : Word) {n k : Nat} (hk : k < n) :
    Memory.get (bankWrite m index v n) (index + k) = byteOf v k := by
  rw [get_bankWrite hm, if_pos ⟨by omega, by omega⟩, Nat.add_sub_cancel_left]

/-- Settles O30: LSU passes BUS's answer on, and a served store's bytes are those of the bank write. -/
theorem lsuStoreWritesLowBytesLittleEndian : Obligations.LsuStoreWritesLowBytesLittleEndian := by
  refine fun s a v size hm => ⟨rfl, (busStore_mod_two_pow s a v size).symm, fun t ht k hk => ?_,
    fun _ => busStore_error⟩
  obtain ⟨hs, rfl⟩ := busStore_ok ht
  rw [setMem_mem, ← bankIndex_of_served hs, get_bankWrite_target hm _ v hk, byteOf_toNat]

end Sys2Proof.Machine
end

section
/-! SUPPORT. The statements about faults (60_exceptions.md): what a faulting step changes, and that every fault halts. -/

namespace Sys2Proof.Machine

/-! ## The faulting step (R197) -/

/-- A step that answers a Halted state took a fault: a retiring step leaves the CORE Running. -/
theorem step_next_halted {s t : State} (h : step s = .next t) (ht : t.run = .halted) : ∃ f, t = takeFault s f := by
  obtain ⟨hrun, hfault | ⟨rd, v, rfl⟩⟩ := step_next_cases h
  · exact hfault
  · rw [retire_run, hrun] at ht
    cases ht

/-- Settles O38: the step took a fault, and taking a fault keeps the registers and the bank. -/
theorem faultingStepChangesOnlyLatchAndRun : Obligations.FaultingStepChangesOnlyLatchAndRun := by
  intro s t h ht
  obtain ⟨f, rfl⟩ := step_next_halted h ht
  exact ⟨f, rfl, readReg_congr (takeFault_regs s f), fun a => congrArg (Memory.get · a) (takeFault_mem s f)⟩

/-! ## Every fault halts (R198) -/

/-- Settles O39: the step takes a fetch's fault and a decode's alike, and never asks for the fatal predicate. -/
theorem everyFaultHaltsFatalOrNot : Obligations.EveryFaultHaltsFatalOrNot := by
  rintro s f _ hrun (hfetch | ⟨w, v, hfetch, hdecode, rfl⟩) -
  · exact ⟨takeFault s f, step_of_fetch_fault hrun hfetch, takeFault_run s f, takeFault_flt s f⟩
  · exact ⟨takeFault s (illegalFault v), step_of_illegal hrun hfetch hdecode, takeFault_run s _, takeFault_flt s _⟩

end Sys2Proof.Machine
end

section
/-! SUPPORT. The statements about construction (70_reset_and_hazards.md): the image a bank can hold, and what every part
of the constructed state is. -/

namespace Sys2Proof.Machine

/-! ## Reset from an image (R231) -/

/-- A constructed state is the reset state of its image, and the parameters are legal and the image fits (R231, R232). -/
theorem construct_eq_ok {p : Params} {img : List Byte} {s : State} (h : construct p img = .ok s) :
    p.legal = true ∧ img.length ≤ p.memCapacity ∧ s = State.resetWith p (imageCells 0 img) := by
  rcases construct_cases p img with ⟨-, e⟩ | ⟨-, -, e⟩ | ⟨hlegal, hfits, e⟩
  · rw [e] at h; cases h
  · rw [e] at h; cases h
  · rw [e] at h; cases h; exact ⟨hlegal, hfits, rfl⟩

/-- The bank of an image holds the image's bytes, then zeros (20_memory.md R52). -/
theorem get_imageCells_zero (img : List Byte) (a : Nat) :
    Memory.get (imageCells 0 img) a = if h : a < img.length then img[a] else 0#8 := by
  have hget : Memory.get (imageCells 0 img) a = img.getD a 0#8 := by simpa using imageCells_get 0 img a
  rw [hget]
  split
  · next h => exact (List.getElem_eq_getD 0#8).symm
  · next h => exact List.getD_eq_default img 0#8 (Nat.not_lt.1 h)

/-- Settles O46: an image that is too long meets no construction, and one that fits gives the reset state of its bank,
read byte by byte and register by register. -/
theorem resetFromImageSetsAllState : Obligations.ResetFromImageSetsAllState := by
  refine fun p img hlegal => ⟨fun hlong s h => ?_, fun hfits => ?_⟩
  · obtain ⟨-, hfits, -⟩ := construct_eq_ok h
    exact Nat.not_lt.2 hfits hlong
  · exact ⟨State.resetWith p (imageCells 0 img), construct_ok hlegal hfits, rfl,
      fun a _ => get_imageCells_zero img a, readReg_resetWith p _, rfl, rfl, rfl⟩

end Sys2Proof.Machine
end

section
/-! SUPPORT. The statements about decoding and encoding (30_encoding.md): a word as its fields side by side, each field
as a number, and the encoder as the inverse of the decoder on the bits the decoder examines. -/

namespace Sys2Proof.Machine

/-! ## A word as its fields side by side (R91 to R93; places PRESUMED, log 3) -/

/-- The six fields tile the word: no bit is in two of them or in none. -/
theorem fields_append (w : InstrWord) :
    fieldFunct7 w ++ fieldRs2 w ++ fieldRs1 w ++ fieldFunct3 w ++ fieldRd w ++ fieldOpcode w = w := by
  simp only [fieldFunct7, fieldRs2, fieldRs1, fieldFunct3, fieldRd, fieldOpcode,
    BitVec.extractLsb'_append_extractLsb'_eq_extractLsb', BitVec.extractLsb'_eq_self]

/-- The immediate field is funct7 and rs2 side by side. -/
theorem fieldImmI_eq_append (w : InstrWord) : fieldImmI w = fieldFunct7 w ++ fieldRs2 w :=
  (BitVec.extractLsb'_append_extractLsb'_eq_extractLsb' (x := w) (start₁ := 20) (len₁ := 5) (len₂ := 7) rfl).symm

/-- The I-format's fields tile the word. -/
theorem iFields_append (w : InstrWord) :
    fieldImmI w ++ fieldRs1 w ++ fieldFunct3 w ++ fieldRd w ++ fieldOpcode w = w := by
  rw [fieldImmI_eq_append, fields_append]

/-- A field above the lowest part of a word is a field of the upper part. -/
theorem extractLsb'_append_add {a b : Nat} (x : BitVec a) (y : BitVec b) (start len : Nat) :
    (x ++ y).extractLsb' (start + b) len = x.extractLsb' start len := by
  rw [BitVec.extractLsb'_append_eq_of_le (Nat.le_add_left b start), Nat.add_sub_cancel]

/-- The second-lowest of a word's parts is the field at its place. -/
theorem extractLsb'_append_middle {a b c : Nat} (x : BitVec a) (y : BitVec b) (z : BitVec c) :
    (x ++ y ++ z).extractLsb' c b = y := by
  rw [BitVec.extractLsb'_append_eq_of_le (Nat.le_refl c), Nat.sub_self, BitVec.extractLsb'_append_eq_right]

/-- A word of ADDI's opcode decodes to the ADDI of its fields, whatever funct3 is (R98). -/
theorem decodeWord_addi_fields (imm : BitVec 12) (rs1 rd : RegIx) (funct3 : BitVec 3) :
    decodeWord (imm ++ rs1 ++ funct3 ++ rd ++ 0x13#7) = .instr (.addi rd rs1 (sext12 imm)) := by
  have hrd : fieldRd (imm ++ rs1 ++ funct3 ++ rd ++ 0x13#7) = rd := extractLsb'_append_middle _ _ _
  have hrs1 : fieldRs1 (imm ++ rs1 ++ funct3 ++ rd ++ 0x13#7) = rs1 :=
    (extractLsb'_append_add _ _ 8 5).trans ((extractLsb'_append_add _ _ 3 5).trans (extractLsb'_append_middle _ _ _))
  have himm : fieldImmI (imm ++ rs1 ++ funct3 ++ rd ++ 0x13#7) = imm :=
    (extractLsb'_append_add _ _ 13 12).trans ((extractLsb'_append_add _ _ 8 12).trans
      ((extractLsb'_append_add _ _ 5 12).trans BitVec.extractLsb'_append_eq_left))
  rw [decodeWord_of_addi BitVec.extractLsb'_append_eq_right, hrd, hrs1, immI, himm]

/-- A word of ADD's opcode decodes to the ADD of its fields, whatever funct3 and funct7 are (R98). -/
theorem decodeWord_add_fields (funct7 : BitVec 7) (rs2 rs1 rd : RegIx) (funct3 : BitVec 3) :
    decodeWord (funct7 ++ rs2 ++ rs1 ++ funct3 ++ rd ++ 0x33#7) = .instr (.add rd rs1 rs2) := by
  have hrd : fieldRd (funct7 ++ rs2 ++ rs1 ++ funct3 ++ rd ++ 0x33#7) = rd := extractLsb'_append_middle _ _ _
  have hrs1 : fieldRs1 (funct7 ++ rs2 ++ rs1 ++ funct3 ++ rd ++ 0x33#7) = rs1 :=
    (extractLsb'_append_add _ _ 8 5).trans ((extractLsb'_append_add _ _ 3 5).trans (extractLsb'_append_middle _ _ _))
  have hrs2 : fieldRs2 (funct7 ++ rs2 ++ rs1 ++ funct3 ++ rd ++ 0x33#7) = rs2 :=
    (extractLsb'_append_add _ _ 13 5).trans ((extractLsb'_append_add _ _ 8 5).trans
      ((extractLsb'_append_add _ _ 5 5).trans (extractLsb'_append_middle _ _ _)))
  rw [decodeWord_of_add BitVec.extractLsb'_append_eq_right, hrd, hrs1, hrs2]

/-! ## The encoder (R103) -/

/-- An ADDI's word is its fields side by side, with funct3 = 0. -/
theorem encode_addi_fields (rd rs1 : RegIx) (imm : Word) :
    encode (.addi rd rs1 imm) = imm.setWidth 12 ++ rs1 ++ 0#3 ++ rd ++ 0x13#7 := by
  refine BitVec.eq_of_getLsbD_eq fun i hi => ?_
  simp only [BitVec.getLsbD_append]
  interval_cases i <;> simp [encode]

/-- An ADD's word is its fields side by side, with funct3 = 0 and funct7 = 0. -/
theorem encode_add_fields (rd rs1 rs2 : RegIx) :
    encode (.add rd rs1 rs2) = 0#7 ++ rs2 ++ rs1 ++ 0#3 ++ rd ++ 0x33#7 := by
  refine BitVec.eq_of_getLsbD_eq fun i hi => ?_
  simp only [BitVec.getLsbD_append]
  interval_cases i <;> simp [encode]

/-- Decoding undoes encoding on well-formed instructions. -/
theorem decodeWord_encode {i : Instr} (hi : i.wf = true) : decodeWord (encode i) = .instr i := by
  cases i with
  | addi rd rs1 imm => rw [encode_addi_fields, decodeWord_addi_fields, sext12_of_fits hi]
  | add rd rs1 rs2 => rw [encode_add_fields, decodeWord_add_fields]

/-- The word of a word's four bytes is that word. -/
theorem wordOfBytes_bytes (w : InstrWord) :
    wordOfBytes (w.extractLsb' 0 8) (w.extractLsb' 8 8) (w.extractLsb' 16 8) (w.extractLsb' 24 8) = w := by
  simp only [wordOfBytes, BitVec.extractLsb'_append_extractLsb'_eq_extractLsb', BitVec.extractLsb'_eq_self]

/-- Decoding the bytes of a word decodes the word, and leaves the bytes behind it. -/
theorem decodeBytes_bytesOfWord {w : InstrWord} {i : Instr} (h : decodeWord w = .instr i) (rest : List Byte) :
    decodeBytes (bytesOfWord w ++ rest) = .ok (i, rest) := by
  simp [bytesOfWord, decodeBytes, wordOfBytes_bytes, h]

theorem tableWord_toNat (w : InstrWord) : tableWord 32 w.toNat = w := by
  rw [tableWord, Nat.mod_eq_of_lt w.isLt, BitVec.ofNat_toNat, BitVec.setWidth_eq]

/-- Settles O16: the encoder's word is the instruction's fields side by side, which decode to it, and the bytes and the
table word carry the same word. -/
theorem decodeOfEncodeIsTheInstruction : Obligations.DecodeOfEncodeIsTheInstruction := by
  intro i rest hi
  have hword := decodeWord_encode hi
  refine ⟨hword, decodeBytes_bytesOfWord hword rest, ?_⟩
  have hbytes := decodeBytes_bytesOfWord hword []
  rw [List.append_nil] at hbytes
  rw [decodeTableWord, tableWord_toNat, hbytes]

/-! ## What the decoder answers, encoded again -/

/-- Every word is an ADDI, an ADD or illegal, by its opcode (R96). -/
theorem decodeWord_cases (w : InstrWord) :
    (fieldOpcode w = 0x13#7 ∧ decodeWord w = .instr (.addi (fieldRd w) (fieldRs1 w) (immI w))) ∨
    (fieldOpcode w = 0x33#7 ∧ decodeWord w = .instr (.add (fieldRd w) (fieldRs1 w) (fieldRs2 w))) ∨
    (fieldOpcode w ≠ 0x13#7 ∧ fieldOpcode w ≠ 0x33#7 ∧
      decodeWord w = .illegal ((fieldOpcode w).setWidth 64)) := by
  by_cases h1 : fieldOpcode w = 0x13#7
  · exact .inl ⟨h1, decodeWord_of_addi h1⟩
  · by_cases h2 : fieldOpcode w = 0x33#7
    · exact .inr (.inl ⟨h2, decodeWord_of_add h2⟩)
    · exact .inr (.inr ⟨h1, h2, decodeWord_of_other h1 h2⟩)

/-- Cutting a 12-bit immediate out of its sign extension gives it back. -/
theorem setWidth_sext12 (v : BitVec 12) : (sext12 v).setWidth 12 = v := by
  refine BitVec.eq_of_getLsbD_eq fun i hi => ?_
  have h64 : i < 64 := by omega
  rw [BitVec.getLsbD_setWidth, sext12, BitVec.getLsbD_signExtend]
  simp [hi, h64]

/-- A mask of ones over a word's lower parts, but for the third of its five, clears that part and masks the first. -/
theorem append_and_clear_third {a b c d e : Nat} (v m : BitVec a) (w : BitVec b) (x : BitVec c) (y : BitVec d)
    (z : BitVec e) :
    (v ++ w ++ x ++ y ++ z) &&& (m ++ BitVec.allOnes b ++ 0#c ++ BitVec.allOnes d ++ BitVec.allOnes e) =
      (v &&& m) ++ w ++ 0#c ++ y ++ z := by
  simp only [BitVec.and_append, BitVec.and_allOnes, BitVec.and_zero]

/-- Masking an I-format word by ADDI's examined bits clears funct3 (R98). -/
theorem iFields_and_mask (imm : BitVec 12) (rs1 rd : RegIx) (funct3 : BitVec 3) (opcode : BitVec 7) :
    (imm ++ rs1 ++ funct3 ++ rd ++ opcode) &&& 0xFFFF8FFF#32 = imm ++ rs1 ++ 0#3 ++ rd ++ opcode := by
  have h := append_and_clear_third imm (BitVec.allOnes 12) rs1 funct3 rd opcode
  rwa [BitVec.and_allOnes] at h

/-- Masking an R-format word by ADD's examined bits clears funct3 and funct7 (R98). -/
theorem rFields_and_mask (funct7 : BitVec 7) (rs2 rs1 rd : RegIx) (funct3 : BitVec 3) (opcode : BitVec 7) :
    (funct7 ++ rs2 ++ rs1 ++ funct3 ++ rd ++ opcode) &&& 0x01FF8FFF#32 =
      0#7 ++ rs2 ++ rs1 ++ 0#3 ++ rd ++ opcode := by
  have hhigh : (funct7 ++ rs2) &&& (0#7 ++ BitVec.allOnes 5) = 0#7 ++ rs2 := by
    rw [BitVec.and_append, BitVec.and_zero, BitVec.and_allOnes]
  have h := append_and_clear_third (funct7 ++ rs2) (0#7 ++ BitVec.allOnes 5) rs1 funct3 rd opcode
  rwa [hhigh] at h

/-- What the decoder answers is well-formed (R94). -/
theorem wf_of_decodeWord {w : InstrWord} {i : Instr} (h : decodeWord w = .instr i) : i.wf = true := by
  rcases decodeWord_cases w with ⟨-, e⟩ | ⟨-, e⟩ | ⟨-, -, e⟩
  · rw [e] at h; cases h; exact fitsImm12_sext12 (fieldImmI w)
  · rw [e] at h; cases h; rfl
  · rw [e] at h; cases h

/-- Encoding what a word decodes to keeps the bits the decoder examines. -/
theorem encode_of_decodeWord {w : InstrWord} {i : Instr} (h : decodeWord w = .instr i) :
    encode i = w &&& examinedMask w := by
  rcases decodeWord_cases w with ⟨hop, e⟩ | ⟨hop, e⟩ | ⟨-, -, e⟩
  · rw [e] at h; cases h
    have hmask : examinedMask w = 0xFFFF8FFF#32 := by rw [examinedMask, hop]; rfl
    have hw := iFields_and_mask (fieldImmI w) (fieldRs1 w) (fieldRd w) (fieldFunct3 w) (fieldOpcode w)
    rw [iFields_append] at hw
    rw [encode_addi_fields, immI, setWidth_sext12, hmask, hw, hop]
  · rw [e] at h; cases h
    have hmask : examinedMask w = 0x01FF8FFF#32 := by rw [examinedMask, hop]; rfl
    have hw := rFields_and_mask (fieldFunct7 w) (fieldRs2 w) (fieldRs1 w) (fieldRd w) (fieldFunct3 w) (fieldOpcode w)
    rw [fields_append] at hw
    rw [encode_add_fields, hmask, hw, hop]
  · rw [e] at h; cases h

/-- Settles O17: the decoder answers well-formed instructions, and the encoder keeps the examined bits. -/
theorem encodeOfDecodeKeepsExaminedBits : Obligations.EncodeOfDecodeKeepsExaminedBits :=
  fun _ _ h => ⟨wf_of_decodeWord h, encode_of_decodeWord h⟩

/-! ## Each field as a number (R91, R94) -/

/-- A field is the word divided by two to its place, cut to the field's width. -/
theorem extractLsb'_eq_ofNat_div (w : InstrWord) (start len : Nat) :
    w.extractLsb' start len = BitVec.ofNat len (w.toNat / 2 ^ start) := by
  rw [BitVec.extractLsb', Nat.shiftRight_eq_div_pow]

theorem fieldRd_eq_ofNat_div (w : InstrWord) : fieldRd w = BitVec.ofNat 5 (w.toNat / 2 ^ 7) :=
  extractLsb'_eq_ofNat_div w 7 5

theorem fieldRs1_eq_ofNat_div (w : InstrWord) : fieldRs1 w = BitVec.ofNat 5 (w.toNat / 2 ^ 15) :=
  extractLsb'_eq_ofNat_div w 15 5

theorem fieldRs2_eq_ofNat_div (w : InstrWord) : fieldRs2 w = BitVec.ofNat 5 (w.toNat / 2 ^ 20) :=
  extractLsb'_eq_ofNat_div w 20 5

/-- The signed value of the immediate, by the word's number. -/
theorem fieldImmI_toInt (w : InstrWord) : (fieldImmI w).toInt =
    (w.toNat / 2 ^ 20 : Nat) - if 2 ^ 31 ≤ w.toNat then (4096 : Int) else 0 := by
  have hlt := w.isLt
  have himm : (fieldImmI w).toNat = w.toNat / 2 ^ 20 := by
    rw [fieldImmI, BitVec.extractLsb'_toNat, Nat.shiftRight_eq_div_pow]
    omega
  rw [BitVec.toInt_eq_toNat_cond, himm]
  split <;> split <;> omega

theorem immI_toInt (w : InstrWord) : (immI w).toInt = (fieldImmI w).toInt :=
  BitVec.toInt_signExtend_of_le (by decide)

/-- Settles O11: the opcode's number picks the branch, and each field is a quotient of the word. -/
theorem decodeReadsEachFieldAtItsPlace : Obligations.DecodeReadsEachFieldAtItsPlace := by
  intro w
  have himm : immI w = BitVec.ofInt 64
      ((w.toNat / 2 ^ 20 : Nat) - if 2 ^ 31 ≤ w.toNat then (4096 : Int) else 0) := by
    rw [← fieldImmI_toInt]
    rfl
  split
  · next h =>
    rw [decodeWord_of_addi (fieldOpcode_eq_of_toNat h), fieldRd_eq_ofNat_div, fieldRs1_eq_ofNat_div, himm]
  · next h1 =>
    split
    · next h =>
      rw [decodeWord_of_add (fieldOpcode_eq_of_toNat h), fieldRd_eq_ofNat_div, fieldRs1_eq_ofNat_div,
        fieldRs2_eq_ofNat_div]
    · next h2 => exact decodeWord_of_other_toNat h1 h2

/-- The immediate's signed value is the word's, divided by 2^20 rounding down. -/
theorem immI_toInt_eq_div (w : InstrWord) : (immI w).toInt = w.toInt / 2 ^ 20 := by
  have hlt := w.isLt
  rw [immI_toInt, fieldImmI_toInt, BitVec.toInt_eq_toNat_cond]
  split <;> split <;> omega

/-- Settles O15: both descriptions have the signed value of the word divided by 2^20. -/
theorem immediateIsTheArithmeticShift : Obligations.ImmediateIsTheArithmeticShift := by
  intro w
  have hshift : ((w.sshiftRight 20).signExtend 64).toInt = w.toInt / 2 ^ 20 := by
    rw [BitVec.toInt_signExtend_of_le (by decide), BitVec.toInt_sshiftRight, Int.shiftRight_eq_div_pow]
    rfl
  have hrange : fitsImm12 (immI w) = true := fitsImm12_sext12 (fieldImmI w)
  rw [fitsImm12, Bool.and_eq_true, decide_eq_true_eq, decide_eq_true_eq] at hrange
  exact ⟨immI_toInt_eq_div w, BitVec.eq_of_toInt_eq ((immI_toInt_eq_div w).trans hshift.symm), hrange⟩

/-! ## The bits the decoder does not examine (R98), and the illegal words (R100, R102) -/

/-- A field that a mask leaves out keeps its value when masked bits are flipped. -/
theorem extractLsb'_xor_and_of_clear {k : InstrWord} {start len : Nat} (hk : k.extractLsb' start len = 0#len)
    (w m : InstrWord) : (w ^^^ (m &&& k)).extractLsb' start len = w.extractLsb' start len := by
  rw [BitVec.extractLsb'_xor, BitVec.extractLsb'_and, hk, BitVec.and_zero, BitVec.xor_zero]

/-- Settles O13: the flipped bits lie in none of the fields that the word's class reads. -/
theorem unexaminedBitsDoNotMatter : Obligations.UnexaminedBitsDoNotMatter := by
  refine fun w m => ⟨fun h => ?_, fun h => ?_, fun h1 h2 => ?_⟩
  · have hop : fieldOpcode w = 0x13#7 := fieldOpcode_eq_of_toNat h
    have hop' : fieldOpcode (w ^^^ (m &&& 0x00007000)) = fieldOpcode w := extractLsb'_xor_and_of_clear (by decide) w m
    have hrd : fieldRd (w ^^^ (m &&& 0x00007000)) = fieldRd w := extractLsb'_xor_and_of_clear (by decide) w m
    have hrs1 : fieldRs1 (w ^^^ (m &&& 0x00007000)) = fieldRs1 w := extractLsb'_xor_and_of_clear (by decide) w m
    have himm : fieldImmI (w ^^^ (m &&& 0x00007000)) = fieldImmI w := extractLsb'_xor_and_of_clear (by decide) w m
    rw [decodeWord_of_addi hop, decodeWord_of_addi (hop'.trans hop), hrd, hrs1, immI, himm, immI]
  · have hop : fieldOpcode w = 0x33#7 := fieldOpcode_eq_of_toNat h
    have hop' : fieldOpcode (w ^^^ (m &&& 0xFE007000)) = fieldOpcode w := extractLsb'_xor_and_of_clear (by decide) w m
    have hrd : fieldRd (w ^^^ (m &&& 0xFE007000)) = fieldRd w := extractLsb'_xor_and_of_clear (by decide) w m
    have hrs1 : fieldRs1 (w ^^^ (m &&& 0xFE007000)) = fieldRs1 w := extractLsb'_xor_and_of_clear (by decide) w m
    have hrs2 : fieldRs2 (w ^^^ (m &&& 0xFE007000)) = fieldRs2 w := extractLsb'_xor_and_of_clear (by decide) w m
    rw [decodeWord_of_add hop, decodeWord_of_add (hop'.trans hop), hrd, hrs1, hrs2]
  · have hop' : fieldOpcode (w ^^^ (m &&& 0xFFFFFF80)) = fieldOpcode w := extractLsb'_xor_and_of_clear (by decide) w m
    have h1' : fieldOpcode w ≠ 0x13#7 := fieldOpcode_ne_of_toNat h1
    have h2' : fieldOpcode w ≠ 0x33#7 := fieldOpcode_ne_of_toNat h2
    rw [decodeWord_of_other h1' h2', decodeWord_of_other (hop' ▸ h1') (hop' ▸ h2'), hop']

/-- Settles O14: both instructions' opcodes end in 0b11, and the all-ones word has another opcode. -/
theorem compressedWordsAreIllegal : Obligations.CompressedWordsAreIllegal :=
  ⟨fun _ h => decodeWord_of_other_toNat (by omega) (by omega), by decide⟩

/-- Settles O18: seven closed words, decoded. -/
theorem wordsOfTheSpecDecode : Obligations.WordsOfTheSpecDecode := by
  unfold Obligations.WordsOfTheSpecDecode
  decide

/-! ## The ID ports (R99) -/

theorem classOf_eq_addi_iff (opcode : BitVec 7) : classOf opcode = .addi ↔ opcode = 0x13#7 := by
  unfold classOf
  split
  · next h => exact iff_of_true rfl h
  · next h => exact iff_of_false (by split <;> nofun) h

theorem classOf_eq_add_iff (opcode : BitVec 7) : classOf opcode = .add ↔ opcode = 0x33#7 := by
  unfold classOf
  split
  · next h => exact iff_of_false nofun (by rw [h]; decide)
  · split
    · next h => exact iff_of_true rfl h
    · next h => exact iff_of_false nofun h

theorem classOf_eq_illegal_iff (opcode : BitVec 7) :
    classOf opcode = .illegal ↔ opcode ≠ 0x13#7 ∧ opcode ≠ 0x33#7 := by
  rw [Ne, Ne, ← classOf_eq_addi_iff, ← classOf_eq_add_iff]
  cases classOf opcode <;> decide

/-- Settles O56: the ports are the fields, which tile the word, and the class follows the opcode. -/
theorem idPortsTileTheWord : Obligations.IdPortsTileTheWord :=
  fun w => ⟨fields_append w, congrArg sext12 (fieldImmI_eq_append w), classOf_eq_addi_iff _, classOf_eq_add_iff _,
    classOf_eq_illegal_iff _⟩

end Sys2Proof.Machine
end

section
/-! SUPPORT. The statements about every step and every host request (10_state.md sections 1 and 3, 60_exceptions.md,
70_reset_and_hazards.md): the invariant, the fault latch, what memory a step leaves, and what the host sees. -/

namespace Sys2Proof.Machine

/-! ## What a step keeps (42_load_store_unit.md R172) -/

theorem step_cfg {s t : State} (h : step s = .next t) : t.cfg = s.cfg := by
  obtain ⟨-, ⟨f, rfl⟩ | ⟨rd, v, rfl⟩⟩ := step_next_cases h
  · exact takeFault_cfg s f
  · exact retire_cfg s rd v

theorem step_mem {s t : State} (h : step s = .next t) : t.mem = s.mem := by
  obtain ⟨-, ⟨f, rfl⟩ | ⟨rd, v, rfl⟩⟩ := step_next_cases h
  · exact takeFault_mem s f
  · exact retire_mem s rd v

/-- Settles O37: neither taking a fault nor retiring a result touches the bank or the parameters. -/
theorem noStepWritesMemory : Obligations.NoStepWritesMemory :=
  fun _ _ h => ⟨step_mem h, step_cfg h, busLoad_congr (step_cfg h) (step_mem h)⟩

/-- Latch and run state still agree after a step (10_state.md R27). -/
theorem step_latchAgrees {s t : State} (hs : s.latchAgrees) (h : step s = .next t) : t.latchAgrees := by
  obtain ⟨-, ⟨f, rfl⟩ | ⟨rd, v, rfl⟩⟩ := step_next_cases h
  · rfl
  · exact hs

/-! ## The invariant -/

theorem step_inv {s t : State} (hs : s.Inv) (h : step s = .next t) : t.Inv := by
  obtain ⟨hlegal, hwf, hwithin, hzero, hlatch⟩ := hs
  rw [← step_cfg h] at hlegal hwithin
  rw [← step_mem h] at hwf hwithin
  exact ⟨hlegal, hwf, hwithin, (step_zero_cell h).trans hzero, step_latchAgrees hlatch h⟩

/-- Settles O50: the invariant's parts are kept one by one. -/
theorem everyStepKeepsTheInvariant : Obligations.EveryStepKeepsTheInvariant :=
  fun _ _ hs h => ⟨step_inv hs h, step_cfg h⟩

theorem serve_cfg (r : HostRequest) (s : State) : (serve r s).2.cfg = s.cfg := by
  rcases serve_cases r s with hsame | hstep | ⟨a, n, v, -, -, hstore⟩
  · rw [hsame]
  · exact step_cfg hstep
  · rw [hstore, setMem_cfg]

theorem serveAll_cfg (rs : List HostRequest) (s : State) : (serveAll rs s).cfg = s.cfg :=
  serveAll_keeps (P := fun t => t.cfg = s.cfg) (fun r t ht => (serve_cfg r t).trans ht) rs rfl

/-- A served store writes within the bank, so a request keeps the invariant. -/
theorem serve_inv (r : HostRequest) (s : State) (hs : s.Inv) : (serve r s).2.Inv := by
  rcases serve_cases r s with hsame | hstep | ⟨a, n, v, ⟨-, -, hfits⟩, -, hstore⟩
  · rw [hsame]; exact hs
  · exact step_inv hs hstep
  · obtain ⟨hlegal, hwf, hwithin, hzero, hlatch⟩ := hs
    rw [hstore]
    exact ⟨hlegal, wf_bankWrite hwf _ v _, within_bankWrite hwithin v hfits, hzero, hlatch⟩

/-- Settles O51: each request keeps the invariant and the parameters, so the list does. -/
theorem everyRequestSequenceKeepsTheInvariant : Obligations.EveryRequestSequenceKeepsTheInvariant :=
  fun rs s hs => ⟨serveAll_keeps serve_inv rs hs, serveAll_cfg rs s⟩

theorem legal_iff (p : Params) :
    p.legal = true ↔ 1 ≤ p.memCapacity ∧ p.memBase.toNat + p.memCapacity ≤ 2 ^ 64 := by
  rw [Params.legal, Bool.and_eq_true, decide_eq_true_eq, decide_eq_true_eq]

/-- The reset state of legal parameters with a canonical bank within them meets the invariant. -/
theorem resetWith_inv {p : Params} {m : Memory} (hlegal : p.legal = true) (hwf : Memory.wf m)
    (hwithin : Memory.within m p.memCapacity) : (State.resetWith p m).Inv :=
  ⟨hlegal, hwf, hwithin, rfl, rfl⟩

/-- Settles O49: an image that fits makes a canonical bank within the capacity. -/
theorem everyConstructedCoreMeetsTheInvariant : Obligations.EveryConstructedCoreMeetsTheInvariant := by
  refine ⟨resetWith_inv (by decide) Memory.wf_nil nofun, fun p img s h => ?_⟩
  obtain ⟨hlegal, hfits, rfl⟩ := construct_eq_ok h
  refine resetWith_inv hlegal (imageCells_wf 0 img) fun c hc => ?_
  have hlt := imageCells_lt hc
  omega

/-- Settles O47: a refusal is exactly illegal parameters or an image that is too long. -/
theorem constructionRefusesExactlyTheRest : Obligations.ConstructionRefusesExactlyTheRest := by
  refine fun p img => ⟨fun ⟨s, h⟩ => ?_, fun ⟨hcap, htop, hfits⟩ => ?_⟩
  · obtain ⟨hlegal, hfits, -⟩ := construct_eq_ok h
    obtain ⟨hcap, htop⟩ := (legal_iff p).1 hlegal
    exact ⟨hcap, htop, hfits⟩
  · exact ⟨_, construct_ok ((legal_iff p).2 ⟨hcap, htop⟩) hfits⟩

/-- Settles O48: the reference parameters are legal, and the reset registers are those of R29. -/
theorem resetIsTheReferenceConstruction : Obligations.ResetIsTheReferenceConstruction := by
  refine ⟨construct_ok (by decide) (Nat.zero_le _), rfl, ?_, fun i hi => ?_, rfl, rfl, rfl⟩
  · rw [State.reset, readReg_resetWith]
    rfl
  · rw [State.reset, readReg_resetWith]
    exact if_neg hi

/-! ## Faults and the latch (60_exceptions.md R194, 10_state.md R27) -/

/-- A step faults with the load fault of its fetch or as an illegal instruction. -/
theorem step_next_fault_cases {s t : State} (h : step s = .next t) (ht : t.run = .halted) :
    t = takeFault s (loadFault s.pc) ∨ ∃ v, t = takeFault s (illegalFault v) := by
  rcases step_cases s with ⟨-, e⟩ | ⟨-, f, hf, e⟩ | ⟨-, -, v, -, -, e⟩ | ⟨hrun, -, i, -, -, e⟩
  · rw [e] at h; cases h
  · rw [e] at h; cases h; exact .inl (by rw [fetch_error hf])
  · rw [e] at h; cases h; exact .inr ⟨v, rfl⟩
  · obtain ⟨rd, v, ev⟩ := exec_retires i s
    rw [e, ev] at h; cases h
    rw [retire_run, hrun] at ht
    cases ht

/-- The fault port names the direction of the request (20_memory.md R65). -/
theorem busCycle_fault {s : State} {q : BusIn} {f : FaultRecord} (h : (busCycle s q).1.fault = some f) :
    f = if q.we then storeFault q.addr else loadFault q.addr := by
  rcases busCycle_cases s q with ⟨-, e⟩ | ⟨-, -, -, e⟩ | ⟨-, -, -, e⟩ | ⟨-, -, e⟩
  · rw [e] at h; cases h
  · rw [e] at h; cases h
  · rw [e] at h; cases h
  · rw [e] at h; exact (Option.some.inj h).symm

/-- Settles O40: a step's fault is that of its fetch or its decode, and a request's is that of its direction. -/
theorem onlyThreeKindsAreRaised : Obligations.OnlyThreeKindsAreRaised := by
  refine ⟨fun s t f h hrun hflt => ?_, fun s q f h => ?_⟩
  · rcases step_next_fault_cases h hrun with rfl | ⟨v, rfl⟩
    · cases hflt; exact .inr rfl
    · cases hflt; exact .inl rfl
  · obtain rfl := busCycle_fault h
    cases hwe : q.we with
    | false => exact .inl ⟨rfl, rfl⟩
    | true => exact .inr ⟨rfl, rfl⟩

theorem serve_latchAgrees (r : HostRequest) (s : State) (hs : s.latchAgrees) : (serve r s).2.latchAgrees := by
  rcases serve_cases r s with hsame | hstep | ⟨a, n, v, -, -, hstore⟩
  · rw [hsame]; exact hs
  · exact step_latchAgrees hs hstep
  · rw [hstore]; exact hs

theorem latchAgrees_of_some {s : State} (hs : s.latchAgrees) {f : FaultRecord} (hf : s.flt = some f) :
    s.run = .halted := by
  simpa [State.latchAgrees, hf] using hs

theorem latchAgrees_of_running {s : State} (hs : s.latchAgrees) (hrun : s.run = .running) : s.flt = none := by
  simpa [State.latchAgrees, hrun] using hs

/-- Settles O42: a latched fault means Halted, which is terminal, and latch and run state go on agreeing. -/
theorem faultLatchIsNeverCleared : Obligations.FaultLatchIsNeverCleared := by
  refine fun s rs hs => ⟨fun f hf => ?_, latchAgrees_of_running (serveAll_keeps serve_latchAgrees rs hs)⟩
  obtain ⟨m, hm⟩ := serveAll_of_halted (latchAgrees_of_some hs hf) rs
  rw [hm, setMem_flt, hf]

/-! ## The FLT ports (60_exceptions.md R193, R209) -/

theorem fltOut_shown_of_some {s : State} {f : FaultRecord} (h : s.flt = some f) :
    (fltOut s).shown = some (showFault s.cfg f) := by
  rw [fltOut, h, Option.map_some]

theorem fltOut_halted_iff (s : State) : (fltOut s).halted = true ↔ s.run = .halted := decide_eq_true_iff

/-- Settles O44: the ports are those of the latch and the run state, and the codes are those of the table. -/
theorem faultPortsShowTheLatch : Obligations.FaultPortsShowTheLatch := by
  refine ⟨fun s => ⟨fltOut_halted_iff s, fun h => ?_, fun f => fltOut_shown_of_some, fun h => ?_⟩, by decide⟩
  · rw [fltOut, h, Option.map_none]
  · rw [fltOut, Option.isSome_map, h]

/-- What is shown is fatal by the parameters' predicate. -/
theorem fltOut_shown_fatal {s : State} {f : FltShown} (h : (fltOut s).shown = some f) :
    f.fatal = isFatal s.cfg f.kind := by
  obtain ⟨g, -, rfl⟩ := Option.map_eq_some_iff.1 h
  rfl

/-- A predicate that is true for the two fixed kinds is the fatal predicate of its table (R193). -/
theorem isFatal_ofPred {g : FaultKind → Bool} (h1 : g .illegalInstruction = true)
    (h2 : g .instructionAccessFault = true) (b : Word) (c : Nat) (k : FaultKind) :
    isFatal { memBase := b, memCapacity := c, fatal := FatalTable.ofPred g } k = g k := by
  cases k <;> simp [isFatal, FatalTable.ofPred, h1, h2]

/-- Settles O45: the predicate's own table, and the parameters no request changes. -/
theorem fatalPredicateIsAnyWithTwoKindsFatal : Obligations.FatalPredicateIsAnyWithTwoKindsFatal := by
  refine ⟨fun p => ⟨rfl, rfl⟩, fun s f h hkind => ?_, fun g h1 h2 => ⟨FatalTable.ofPred g, fun b c => ?_⟩⟩
  · rw [fltOut_shown_fatal h, hkind]
    rfl
  · have hg := isFatal_ofPred h1 h2 b c
    refine ⟨hg, fun img s h => ?_⟩
    obtain ⟨-, -, rfl⟩ := construct_eq_ok h
    refine ⟨hg, fun rs f hf => ?_⟩
    rw [fltOut_shown_fatal hf, serveAll_cfg]
    exact hg f.kind

/-! ## The host's requests and replies (R236) -/

/-- A step has a next state exactly while Running. -/
theorem exists_step_of_running {s : State} (h : s.run = .running) : ∃ t, step s = .next t := by
  rcases step_cases s with ⟨h', -⟩ | ⟨-, f, -, e⟩ | ⟨-, -, v, -, -, e⟩ | ⟨-, -, i, -, -, e⟩
  · rw [h] at h'; cases h'
  · exact ⟨_, e⟩
  · exact ⟨_, e⟩
  · obtain ⟨rd, v, ev⟩ := exec_retires i s
    exact ⟨_, e.trans ev⟩

/-- Settles O43: Running has a next state, Halted has the named fault, and there is no third run state. -/
theorem stepStopsExactlyWhenHalted : Obligations.StepStopsExactlyWhenHalted := by
  intro s
  cases hrun : s.run with
  | running =>
    obtain ⟨t, e⟩ := exists_step_of_running hrun
    rw [e]
    exact ⟨iff_of_true rfl ⟨t, rfl⟩, iff_of_false nofun nofun, nofun⟩
  | halted =>
    have e := step_of_halted hrun
    exact ⟨iff_of_false nofun fun ⟨t, ht⟩ => step_ne_next_of_halted hrun t ht, iff_of_true rfl e,
      by rw [e]; exact nofun⟩

theorem serve_step_of_next {s t : State} (h : step s = .next t) : serve .step s = (.done, t) := by
  rw [serve, h]

theorem serve_step_of_halted {s : State} (h : s.run = .halted) : serve .step s = (.noStep .halted, s) := by
  rw [serve, step_of_halted h]

/-- A request other than a step reaches the bank's contents only. -/
theorem serve_of_ne_step {r : HostRequest} (hr : r ≠ .step) (s : State) : ∃ m, (serve r s).2 = s.setMem m := by
  cases r with
  | step => exact absurd rfl hr
  | lsuStore a n v =>
    rcases busStore_cases s a n v with ⟨-, e⟩ | ⟨-, e⟩
    · exact ⟨_, by rw [serve, Sys2Proof.Machine.lsuStore, e]⟩
    · exact ⟨s.mem, by rw [serve, Sys2Proof.Machine.lsuStore, e]; rfl⟩
  | lsuLoad a n =>
    rcases busLoad_cases s a n with ⟨-, e⟩ | ⟨-, e⟩
    · exact ⟨s.mem, by rw [serve, Sys2Proof.Machine.lsuLoad, e]; rfl⟩
    · exact ⟨s.mem, by rw [serve, Sys2Proof.Machine.lsuLoad, e]; rfl⟩
  | readReg i => exact ⟨s.mem, rfl⟩
  | readPc => exact ⟨s.mem, rfl⟩
  | readNames => exact ⟨s.mem, rfl⟩
  | readFault => exact ⟨s.mem, rfl⟩

/-- A request other than an LSU store leaves the bank. -/
theorem serve_mem_of_ne_lsuStore {r : HostRequest} (hr : ∀ a n v, r ≠ .lsuStore a n v) (s : State) :
    (serve r s).2.mem = s.mem := by
  rcases serve_cases r s with hsame | hstep | ⟨a, n, v, -, e, -⟩
  · rw [hsame]
  · exact step_mem hstep
  · exact absurd e (hr a n v)

/-- Settles O52: the frame by what a request can do, the replies by the branch of each request. -/
theorem hostRequestsChangeOnlyWhatTheyMay : Obligations.HostRequestsChangeOnlyWhatTheyMay := by
  refine fun r s => ⟨fun hr => ?_, fun hr => serve_mem_of_ne_lsuStore hr s, fun i => rfl, rfl, rfl, rfl,
    fun t => serve_step_of_next, fun hrun => ?_, serve_step_of_halted, fun a n v h => ?_, fun a n f h => ?_,
    fun a n v t h => ?_, fun a n v f h => ?_⟩
  · obtain ⟨m, hm⟩ := serve_of_ne_step hr s
    rw [hm]
    rfl
  · obtain ⟨t, ht⟩ := exists_step_of_running hrun
    rw [serve_step_of_next ht]
  · rw [serve, h]
  · rw [serve, h]
  · rw [serve, h]
  · rw [serve, h]

end Sys2Proof.Machine
end

section
/-! SUPPORT. The statements about accesses to memory (20_memory.md, 42_load_store_unit.md R175): when one is served, what
a load sees of the stores before it, and what the LSU ports do. -/

namespace Sys2Proof.Machine

/-! ## When an access is served (R57, R63, R64) -/

theorem legalSize_iff (size : Nat) : legalSize size = true ↔ size = 8 ∨ size = 16 ∨ size = 32 ∨ size = 64 := by
  simp only [legalSize, Bool.or_eq_true, beq_iff_eq, or_assoc]

theorem exists_busLoad_ok_iff (s : State) (addr : Word) (size : Nat) :
    (∃ r, busLoad s addr size = .ok r) ↔ Served s.cfg addr size :=
  ⟨fun ⟨_, h⟩ => (busLoad_ok h).1, fun h => ⟨_, busLoad_of_served h⟩⟩

theorem exists_busStore_ok_iff (s : State) (addr v : Word) (size : Nat) :
    (∃ t, busStore s addr size v = .ok t) ↔ Served s.cfg addr size :=
  ⟨fun ⟨_, h⟩ => (busStore_ok h).1, fun h => ⟨_, busStore_of_served h v⟩⟩

/-- Settles O26: either direction succeeds exactly when the access is served, which is the net condition. -/
theorem accessIsServedExactlyInsideTheBank : Obligations.AccessIsServedExactlyInsideTheBank := by
  intro s a v size
  rw [exists_busLoad_ok_iff, exists_busStore_ok_iff, served_iff_covers, legalSize_iff]
  exact ⟨Iff.rfl, Iff.rfl⟩

/-- Settles O27: another size is not legal, so MEM refuses it and no access of it is served. -/
theorem otherSizesFault : Obligations.OtherSizesFault := by
  intro s a v size h8 h16 h32 h64
  have hsize : ¬ legalSize size = true := by
    rw [legalSize_iff]
    omega
  have hserved : ¬ Served s.cfg a size := fun h => hsize h.1
  have hfalse : legalSize size = false := Bool.eq_false_iff.2 hsize
  exact ⟨if_pos hfalse, busLoad_of_not_served hserved, if_pos hfalse, busStore_of_not_served hserved v⟩

/-! ## Loads after stores (R69, R74) -/

/-- A bank read of bytes that are a word's low bytes gives that word's low bits. -/
theorem bankRead_of_bytes {m : Memory} {index n : Nat} (hn : n ≤ 8) {w : Word}
    (h : ∀ k < n, Memory.get m (index + k) = byteOf w k) :
    bankRead m index n = BitVec.ofNat 64 (w.toNat % 2 ^ (8 * n)) := by
  have hsum : (bankRead m index n).toNat = w.toNat % 2 ^ (8 * n) := by
    rw [pow_mul, bankRead_toNat m index hn, show 2 ^ 8 = 256 from rfl, toNat_mod_eq_sum_byteOf]
    exact Finset.sum_congr rfl fun k hk => by rw [h k (Finset.mem_range.1 hk)]
  rw [← hsum, BitVec.ofNat_toNat, BitVec.setWidth_eq]

/-- The bytes of a word shifted down by whole bytes are its higher bytes. -/
theorem byteOf_shiftRight (v : Word) (j k : Nat) : byteOf (v >>> (8 * j)) k = byteOf v (j + k) := by
  rw [byteOf, byteOf, Nat.mul_add, BitVec.shiftRight_add]

/-- Reading `n` bytes from place `j` of a wider bank write gives that part of the written word. -/
theorem bankRead_bankWrite {m : Memory} (hm : Memory.wf m) (index : Nat) (v : Word) {j n wide : Nat}
    (hwide : wide ≤ 8) (hpart : j + n ≤ wide) :
    bankRead (bankWrite m index v wide) (index + j) n =
      BitVec.ofNat 64 (v.toNat / 2 ^ (8 * j) % 2 ^ (8 * n)) := by
  rw [← Nat.shiftRight_eq_div_pow, ← BitVec.toNat_ushiftRight]
  refine bankRead_of_bytes (by omega) fun k hk => ?_
  rw [byteOf_shiftRight, Nat.add_assoc, get_bankWrite_target hm index v (by omega)]

/-- Settles O31: the load is served where the store was, and reads the whole of what it wrote. -/
theorem loadAfterStoreReturnsTheValue : Obligations.LoadAfterStoreReturnsTheValue := by
  intro s t a v size hm hstore
  obtain ⟨hs, rfl⟩ := busStore_ok hstore
  obtain ⟨-, hsize, hbits⟩ := legalSize_div hs.1
  have hread := bankRead_bankWrite hm (bankIndex s.cfg a) v (j := 0) hsize (Nat.zero_add (size / 8)).le
  rw [hbits, Nat.mul_zero, Nat.pow_zero, Nat.div_one] at hread
  rw [lsuLoad, busLoad_setMem_of_served hs]
  exact congrArg Except.ok hread

/-- A bank of legal parameters does not wrap: an access inside a covered one is at the same distance in addresses and in
indices (R54). -/
theorem covers_add {p : Params} (hlegal : p.legal = true) {a : Word} {wide : Nat} (ha : p.covers a wide) {j n : Nat}
    (hn : 0 < n) (hpart : j + n ≤ wide) :
    p.covers (a + BitVec.ofNat 64 j) n ∧ (a + BitVec.ofNat 64 j).toNat = a.toNat + j := by
  obtain ⟨-, htop⟩ := (legal_iff p).1 hlegal
  obtain ⟨hle, hfits⟩ := ha
  have hsum : (a + BitVec.ofNat 64 j).toNat = a.toNat + j := by
    rw [BitVec.toNat_add, BitVec.toNat_ofNat, Nat.add_mod_mod, Nat.mod_eq_of_lt (by omega)]
  rw [Params.covers, hsum]
  exact ⟨⟨by omega, by omega⟩, rfl⟩

/-- Settles O32: the narrow load lies inside the wide store without wrapping, and reads its part of it. -/
theorem narrowLoadsReadPartsOfAWideStore : Obligations.NarrowLoadsReadPartsOfAWideStore := by
  intro s t a v j n hlegal hm hstore hn hpart
  obtain ⟨hs, rfl⟩ := busStore_ok hstore
  have hwide : s.cfg.covers a 8 := ((served_iff_covers _ _ _).1 hs).2
  obtain ⟨hcovers, haddr⟩ := covers_add hlegal hwide (by omega) hpart
  have hbytes : 8 * n / 8 = n := Nat.mul_div_cancel_left n (by decide)
  have hs' : Served s.cfg (a + BitVec.ofNat 64 j) (8 * n) :=
    (served_iff_covers _ _ _).2 ⟨(legalSize_iff _).2 (by omega), hbytes.symm ▸ hcovers⟩
  have hindex : bankIndex s.cfg (a + BitVec.ofNat 64 j) = bankIndex s.cfg a + j := by
    rw [bankIndex_of_le hcovers.1, bankIndex_of_le hwide.1, haddr, Nat.sub_add_comm hwide.1]
  rw [lsuLoad, busLoad_setMem_of_served hs', hindex, hbytes]
  exact congrArg Except.ok (bankRead_bankWrite hm _ v (Nat.le_refl 8) hpart)

/-! ## Repeated stores (R72) -/

/-- Writing bytes that the bank holds already leaves it. -/
theorem bankWrite_of_bytes {m : Memory} (hm : Memory.wf m) {index n : Nat} {v : Word}
    (h : ∀ k < n, Memory.get m (index + k) = byteOf v k) : bankWrite m index v n = m := by
  refine Memory.ext_get (wf_bankWrite hm index v n) hm fun a => ?_
  rw [get_bankWrite hm]
  split
  · next ha => rw [← h (a - index) (by omega), Nat.add_sub_cancel' ha.1]
  · rfl

/-- Settles O33: after the store, and after the load, the bank holds the bytes to be written. -/
theorem repeatedStoreIsIdempotent : Obligations.RepeatedStoreIsIdempotent := by
  refine fun s a v size hm => ⟨fun t hstore => ?_, fun r hload => ?_⟩
  · obtain ⟨hs, rfl⟩ := busStore_ok hstore
    have hwrite := bankWrite_of_bytes (wf_bankWrite hm (bankIndex s.cfg a) v (size / 8))
      fun k hk => get_bankWrite_target hm _ v hk
    rw [lsuStore, busStore_setMem_of_served hs, hwrite]
  · obtain ⟨hs, rfl⟩ := busLoad_ok hload
    have hsize := (legalSize_div hs.1).2.1
    have hwrite : bankWrite s.mem (bankIndex s.cfg a) (bankRead s.mem (bankIndex s.cfg a) (size / 8)) (size / 8) =
        s.mem :=
      bankWrite_of_bytes hm fun k hk => by rw [byteOf_bankRead _ _ hsize, if_pos hk]
    rw [lsuStore, busStore_of_served hs, hwrite]
    rfl

/-! ## The last write in request order (R74) -/

theorem serve_wf (r : HostRequest) {s : State} (hm : Memory.wf s.mem) : Memory.wf (serve r s).2.mem := by
  rcases serve_cases r s with hsame | hstep | ⟨a, n, v, -, -, hstore⟩
  · rw [hsame]; exact hm
  · rw [step_mem hstep]; exact hm
  · rw [hstore]; exact wf_bankWrite hm _ v _

/-- The byte after a request that is no LSU store is the byte before. -/
theorem byteAfter_of_ne_lsuStore {r : HostRequest} (hr : ∀ a n v, r ≠ .lsuStore a n v) (p : Params) (a : Nat)
    (b : Byte) : byteAfter p a b r = b := by
  cases r with
  | lsuStore addr size v => exact absurd rfl (hr addr size v)
  | step => rfl
  | readReg i => rfl
  | readPc => rfl
  | readNames => rfl
  | readFault => rfl
  | lsuLoad addr size => rfl

/-- A store that is not served changes no byte. -/
theorem byteAfter_of_not_served {p : Params} {addr : Word} {size : Nat} (h : ¬ Served p addr size) (a : Nat) (b : Byte)
    (v : Word) : byteAfter p a b (.lsuStore addr size v) = b :=
  if_neg fun ⟨hl, hc, _⟩ => h ((served_iff_covers p addr size).2 ⟨hl, hc⟩)

/-- A served store changes the bytes it targets (R58). -/
theorem byteAfter_of_served {p : Params} {addr : Word} {size : Nat} (h : Served p addr size) (a : Nat) (b : Byte)
    (v : Word) : byteAfter p a b (.lsuStore addr size v) =
      if bankIndex p addr ≤ a ∧ a < bankIndex p addr + size / 8 then byteOf v (a - bankIndex p addr) else b := by
  obtain ⟨hl, hc⟩ := (served_iff_covers p addr size).1 h
  rw [bankIndex_of_served h]
  by_cases ha : addr.toNat - p.memBase.toNat ≤ a ∧ a < addr.toNat - p.memBase.toNat + size / 8
  · rw [if_pos ha]
    exact if_pos ⟨hl, hc, ha⟩
  · rw [if_neg ha]
    exact if_neg fun h => ha h.2.2

/-- One request makes of each byte what the description says. -/
theorem get_serve (r : HostRequest) {s : State} (hm : Memory.wf s.mem) (a : Nat) :
    Memory.get (serve r s).2.mem a = byteAfter s.cfg a (Memory.get s.mem a) r := by
  by_cases hr : ∀ addr size v, r ≠ .lsuStore addr size v
  · rw [serve_mem_of_ne_lsuStore hr, byteAfter_of_ne_lsuStore hr]
  · push Not at hr
    obtain ⟨addr, size, v, rfl⟩ := hr
    rcases busStore_cases s addr size v with ⟨hs, e⟩ | ⟨hs, e⟩
    · rw [serve, Sys2Proof.Machine.lsuStore, e, byteAfter_of_served hs]
      exact get_bankWrite hm _ v _ a
    · rw [serve, Sys2Proof.Machine.lsuStore, e, byteAfter_of_not_served hs]

/-- Settles O35: by induction on the requests, each of which makes of the byte what the description says. -/
theorem bytesHoldTheLastWriteInOrder : Obligations.BytesHoldTheLastWriteInOrder := by
  intro rs
  induction rs with
  | nil => exact fun s a hm => rfl
  | cons r rs ih =>
    intro s a hm
    have htail := ih (serve r s).2 a (serve_wf r hm)
    rw [get_serve r hm, serve_cfg] at htail
    exact htail

/-! ## The LSU ports (42_load_store_unit.md R175) -/

theorem busCycle_fault_eq_some_iff (s : State) (q : BusIn) (f : FaultRecord) :
    (busCycle s q).1.fault = some f ↔ q.req = true ∧
      (q.we = false ∧ busLoad s q.addr q.size = .error f ∨
        q.we = true ∧ busStore s q.addr q.size q.wdata = .error f) := by
  rcases busCycle_cases s q with ⟨hreq, e⟩ | ⟨hreq, hwe, hs, e⟩ | ⟨hreq, hwe, hs, e⟩ | ⟨hreq, hs, e⟩
  · simp [e, hreq]
  · simp [e, hreq, hwe, busLoad_of_served hs]
  · simp [e, hreq, hwe, busStore_of_served hs]
  · cases hwe : q.we with
    | false => simp [e, hreq, hwe, busLoad_of_not_served hs]
    | true => simp [e, hreq, hwe, busStore_of_not_served hs]

theorem busCycle_rdata_eq_some_iff (s : State) (q : BusIn) (v : Word) :
    (busCycle s q).1.rdata = some v ↔ q.req = true ∧ q.we = false ∧ busLoad s q.addr q.size = .ok v := by
  rcases busCycle_cases s q with ⟨hreq, e⟩ | ⟨hreq, hwe, hs, e⟩ | ⟨hreq, hwe, hs, e⟩ | ⟨hreq, hs, e⟩
  · simp [e, hreq]
  · simp [e, hreq, hwe, busLoad_of_served hs]
  · simp [e, hwe]
  · simp [e, busLoad_of_not_served hs]

/-- A request at the BUS ports reaches the bank's contents only. -/
theorem busCycle_frame (s : State) (q : BusIn) : (busCycle s q).2 = { s with mem := (busCycle s q).2.mem } := by
  rcases busCycle_cases s q with ⟨-, e⟩ | ⟨-, -, -, e⟩ | ⟨-, -, -, e⟩ | ⟨-, -, e⟩
  · rw [e]
  · rw [e]
  · rw [e]; rfl
  · rw [e]

theorem busCycle_of_store_ok {s t : State} {q : BusIn} (hreq : q.req = true) (hwe : q.we = true)
    (h : busStore s q.addr q.size q.wdata = .ok t) : busCycle s q = ({ rdata := none, fault := none }, t) := by
  simp [busCycle, hreq, hwe, h]

theorem busCycle_state_of_no_store (s : State) {q : BusIn} (h : q.we = false ∨ q.req = false) :
    (busCycle s q).2 = s := by
  rcases h with hwe | hreq
  · exact busCycle_state_of_load s hwe
  · simp [busCycle, hreq]

/-- Settles O36: LSU's ports are those of BUS, clause by clause. -/
theorem lsuRequestsLeaveTheCoreAlone : Obligations.LsuRequestsLeaveTheCoreAlone := by
  refine fun s q => ⟨rfl, busCycle_frame s q, fun hreq hwe t ht => ?_, busCycle_fault_eq_some_iff s q,
    busCycle_state_of_no_store s, busCycle_rdata_eq_some_iff s q⟩
  rw [lsuCycle, busCycle_of_store_ok hreq hwe ht]
  exact ⟨rfl, rfl⟩

end Sys2Proof.Machine
end

section
/-! SUPPORT. The statements about the ALU and its data path (41_integer_alu.md, 10_state.md R23): the sum, the registers
it is read from and written to, and the ports between them. -/

namespace Sys2Proof.Machine

/-! ## The sum (R150) -/

/-- Settles O9: addition of 64-bit words, in each of the two readings. -/
theorem aluAddsModulo64Bits : Obligations.AluAddsModulo64Bits := by
  refine fun a b => ⟨BitVec.toNat_add a b, ?_⟩
  rw [BitVec.ofInt_add, BitVec.ofInt_toInt, BitVec.ofInt_toInt]
  rfl

/-! ## Sources and destination (R101, R153) -/

/-- Retiring into x0 moves the pc alone. -/
theorem retire_x0 (s : State) (v : Word) : retire s 0#5 v = { s with pc := s.pc + 4 } := by
  rw [retire, writeReg_x0]
  rfl

/-- Settles O6: both instructions retire their sum into x0. -/
theorem resultToX0ChangesOnlyPc : Obligations.ResultToX0ChangesOnlyPc := by
  intro rs1 rs2 imm s
  rw [exec_addi, exec_add]
  exact ⟨congrArg _ (retire_x0 s _), congrArg _ (retire_x0 s _)⟩

theorem readReg_retire_same (s : State) {r : RegIx} (hr : r ≠ 0#5) (v : Word) : readReg (retire s r v) r = v := by
  rw [readReg_retire, if_neg hr, if_pos rfl]

/-- Settles O7: the sum that is retired was read from the state before, and the destination holds it. -/
theorem sourcesAreReadBeforeRdIsWritten : Obligations.SourcesAreReadBeforeRdIsWritten := by
  refine fun r q imm s hr => ⟨⟨_, exec_addi r r imm s, readReg_retire_same s hr _⟩,
    ⟨_, exec_add r r q s, readReg_retire_same s hr _⟩, ⟨_, exec_add r q r s, readReg_retire_same s hr _⟩,
    ⟨_, exec_add r r r s, ?_⟩⟩
  rw [readReg_retire_same s hr, BitVec.toNat_add, Nat.two_mul]

/-! ## From the fetched fields to the next state (30_encoding.md R92, R93) -/

/-- A step that retires a value: the pc moves by four, the CORE stays Running, the destination holds the value. -/
theorem step_retires {s : State} (hrun : s.run = .running) {rd : RegIx} {v : Word}
    (h : step s = .next (retire s rd v)) : ∃ t, step s = .next t ∧ t.pc = s.pc + 4 ∧ t.run = .running ∧
      ∀ r, readReg t r = if r = 0 then 0 else if r = rd then v else readReg s r :=
  ⟨_, h, retire_pc s rd v, (retire_run s rd v).trans hrun, fun r => readReg_retire s rd r v⟩

/-- Settles O55: the fetched fields decode to the instruction, whose sum the step retires. -/
theorem fetchedAluWordsStepToTheirSums : Obligations.FetchedAluWordsStepToTheirSums :=
  ⟨fun s imm rs1 rd funct3 hrun hfetch => step_retires hrun
      ((step_of_instr hrun hfetch (decodeWord_addi_fields imm rs1 rd funct3)).trans (exec_addi rd rs1 (sext12 imm) s)),
    fun s funct7 rs2 rs1 rd funct3 hrun hfetch => step_retires hrun
      ((step_of_instr hrun hfetch (decodeWord_add_fields funct7 rs2 rs1 rd funct3)).trans (exec_add rd rs1 rs2 s))⟩

/-! ## The ports (10_state.md R23, R150) -/

/-- The ports of an ADDI word: the ALU adds rs1 and the immediate, and RF writes. -/
theorem ports_of_addi {w : InstrWord} (h : fieldOpcode w = 0x13#7) (s : State) (y : Word) :
    aluOutOf w (rfRead s (fieldRs1 w) (fieldRs2 w)) = some (readReg s (fieldRs1 w) + immI w) ∧
    (rfCycle s (rfInOf w y)).2 = writeReg s (fieldRd w) y := by
  have hcls : (idOut w).cls = .addi := (classOf_eq_addi_iff _).2 h
  exact ⟨by rw [aluOutOf, aluB, hcls]; rfl, by rw [rfCycle, rfInOf, hcls]; rfl⟩

/-- The ports of an ADD word: the ALU adds rs1 and rs2, and RF writes. -/
theorem ports_of_add {w : InstrWord} (h : fieldOpcode w = 0x33#7) (s : State) (y : Word) :
    aluOutOf w (rfRead s (fieldRs1 w) (fieldRs2 w)) = some (readReg s (fieldRs1 w) + readReg s (fieldRs2 w)) ∧
    (rfCycle s (rfInOf w y)).2 = writeReg s (fieldRd w) y := by
  have hcls : (idOut w).cls = .add := (classOf_eq_add_iff _).2 h
  exact ⟨by rw [aluOutOf, aluB, hcls]; rfl, by rw [rfCycle, rfInOf, hcls]; rfl⟩

/-- The ports of any other word: the ALU has no output, and RF does not write. -/
theorem ports_of_other {w : InstrWord} (h1 : fieldOpcode w ≠ 0x13#7) (h2 : fieldOpcode w ≠ 0x33#7) (s : State)
    (y : Word) (rf : RfOut) : aluOutOf w rf = none ∧ (rfCycle s (rfInOf w y)).2 = s := by
  have hcls : (idOut w).cls = .illegal := (classOf_eq_illegal_iff _).2 ⟨h1, h2⟩
  exact ⟨by rw [aluOutOf, aluB, hcls]; rfl, by rw [rfCycle, rfInOf, hcls]; rfl⟩

/-- Settles O10: by the word's class, whose ports and whose instruction name the same sum. -/
theorem portDataPathIsExec : Obligations.PortDataPathIsExec := by
  refine fun w s => ⟨fun i hi => ?_, fun v y rf hv => ?_, fun q => rfl⟩
  · rcases decodeWord_cases w with ⟨hop, e⟩ | ⟨hop, e⟩ | ⟨-, -, e⟩
    · rw [e] at hi; cases hi
      refine ⟨_, (ports_of_addi hop s 0).1, ?_⟩
      rw [(ports_of_addi hop s _).2, exec_addi]
      rfl
    · rw [e] at hi; cases hi
      refine ⟨_, (ports_of_add hop s 0).1, ?_⟩
      rw [(ports_of_add hop s _).2, exec_add]
      rfl
    · rw [e] at hi; cases hi
  · rcases decodeWord_cases w with ⟨-, e⟩ | ⟨-, e⟩ | ⟨h1, h2, -⟩
    · rw [e] at hv; cases hv
    · rw [e] at hv; cases hv
    · exact ports_of_other h1 h2 s y rf

end Sys2Proof.Machine
end

section
/-! SUPPORT. The statements about the fetch unit and the run of a CORE (40_fetch_unit.md): the word a fetch gives, the
step it leads to, the ports it is made at, and how long a run can be. -/

namespace Sys2Proof.Machine

/-! ## The fetched word (R121, R124, R125) -/

/-- A fetch is served exactly when the bank covers the four bytes at the pc. -/
theorem served_fetch_iff (s : State) : Served s.cfg s.pc 32 ↔ s.cfg.covers s.pc 4 :=
  (served_iff_covers s.cfg s.pc 32).trans (and_iff_right rfl)

theorem fetch_of_covers {s : State} (h : s.cfg.covers s.pc 4) :
    fetch s = .ok (wordOfBytes (byteAtPc s 0) (byteAtPc s 1) (byteAtPc s 2) (byteAtPc s 3)) := by
  have hs := (served_fetch_iff s).2 h
  rw [fetch, busLoad_of_served hs, bankIndex_of_served hs]
  exact congrArg Except.ok (bankRead_four s.mem _)

theorem fetch_of_not_covers {s : State} (h : ¬ s.cfg.covers s.pc 4) : fetch s = .error (loadFault s.pc) :=
  fetch_of_not_served fun hs => h ((served_fetch_iff s).1 hs)

/-- Settles O19: the two sides of the fetch's condition. -/
theorem fetchReadsFourBytesExactlyInsideTheBank : Obligations.FetchReadsFourBytesExactlyInsideTheBank :=
  fun _ => ⟨fetch_of_covers, fetch_of_not_covers⟩

/-! ## The step of a fetched word (R127, R128) -/

/-- Four bytes that decode to an instruction are the bytes of a word that does. -/
theorem decodeWord_of_decodeBytes {b0 b1 b2 b3 : Byte} {i : Instr} {rest : List Byte}
    (h : decodeBytes [b0, b1, b2, b3] = .ok (i, rest)) : decodeWord (wordOfBytes b0 b1 b2 b3) = .instr i := by
  cases hd : decodeWord (wordOfBytes b0 b1 b2 b3) with
  | instr j => rw [decodeBytes, hd] at h; cases h; rfl
  | illegal v => rw [decodeBytes, hd] at h; cases h

/-- Settles O1: the fetched word is that of the four bytes, and what the decoder answers is well-formed. -/
theorem stepIsExecOfTheFetchedInstruction : Obligations.StepIsExecOfTheFetchedInstruction := by
  intro s i rest hrun hcovers hbytes
  have hd := decodeWord_of_decodeBytes hbytes
  exact ⟨step_of_instr hrun (fetch_of_covers hcovers) hd, wf_of_decodeWord hd⟩

/-- Executing an instruction neither reads nor writes the bank. -/
theorem exec_setMem {s t : State} {i : Instr} (h : exec i s = .next t) (m : Memory) :
    exec i (s.setMem m) = .next (t.setMem m) := by
  cases i with
  | addi rd rs1 imm => rw [exec_addi] at h; cases h; rfl
  | add rd rs1 rs2 => rw [exec_add] at h; cases h; rfl

/-- Settles O22: both banks give the fetch the same word, which alone picks the step. -/
theorem stepDependsOnTheFetchedWordOnly : Obligations.StepDependsOnTheFetchedWordOnly := by
  intro s t m hcovers hbytes h
  have hfetch : fetch (s.setMem m) = fetch s := by
    rw [fetch_of_covers hcovers, fetch_of_covers (s := s.setMem m) hcovers, hbytes 0 (by decide), hbytes 1 (by decide),
      hbytes 2 (by decide), hbytes 3 (by decide)]
  rcases step_cases s with ⟨-, e⟩ | ⟨-, f, hf, -⟩ | ⟨hrun, w, v, hf, hd, e⟩ | ⟨hrun, w, i, hf, hd, e⟩
  · rw [e] at h; cases h
  · rw [fetch_of_covers hcovers] at hf; cases hf
  · rw [e] at h; cases h
    exact step_of_illegal (s := s.setMem m) hrun (hfetch.trans hf) hd
  · rw [step_of_instr (s := s.setMem m) hrun (hfetch.trans hf) hd]
    exact exec_setMem (e.symm.trans h) m

/-! ## A stored word is fetched (20_memory.md R77) -/

/-- A served store at the pc is what the next fetch answers. -/
theorem fetch_of_store {s t : State} {v : Word} (hm : Memory.wf s.mem) (h : lsuStore s s.pc 32 v = .ok t) :
    fetch t = .ok (v.setWidth 32) := by
  have hload : busLoad t s.pc 32 = .ok (BitVec.ofNat 64 (v.toNat % 2 ^ 32)) :=
    loadAfterStoreReturnsTheValue s t s.pc v 32 hm h
  have hpc : t.pc = s.pc := by
    obtain ⟨-, rfl⟩ := busStore_ok h
    rfl
  have hlow : (BitVec.ofNat 64 (v.toNat % 2 ^ 32)).setWidth 32 = v.setWidth 32 := by
    refine BitVec.eq_of_toNat_eq ?_
    rw [BitVec.toNat_setWidth, BitVec.toNat_ofNat, BitVec.toNat_setWidth]
    omega
  rw [fetch, hpc, hload, ← hlow]

/-- Where the bank covers the pc, placing a word stores it and leaves the run state. -/
theorem withFetchWord_of_covers {s : State} (h : s.cfg.covers s.pc 4) (w : InstrWord) :
    lsuStore s s.pc 32 (w.setWidth 64) = .ok (s.withFetchWord 32 w.toNat) ∧
    (s.withFetchWord 32 w.toNat).run = s.run := by
  have hstore := busStore_of_served ((served_fetch_iff s).2 h) (w.setWidth 64)
  rw [State.withFetchWord, tableWord_toNat, placeWord, lsuStore, hstore]
  exact ⟨rfl, rfl⟩

/-- Settles O34: the store is read back at the pc, and placing a word is such a store. -/
theorem nextFetchSeesTheStore : Obligations.NextFetchSeesTheStore := by
  refine ⟨fun s t v hm h => fetch_of_store hm h, fun s w i hm hrun hcovers hd => ?_⟩
  obtain ⟨hstore, hrun'⟩ := withFetchWord_of_covers hcovers w
  have hfetch := fetch_of_store hm hstore
  rw [BitVec.setWidth_setWidth_of_le w (by decide), BitVec.setWidth_eq] at hfetch
  exact step_of_instr (hrun'.trans hrun) hfetch hd

/-! ## Running off the image (R133) -/

theorem step_of_zero_bytes {s : State} (hrun : s.run = .running) (hcovers : s.cfg.covers s.pc 4)
    (hzero : ∀ k < 4, byteAtPc s k = 0) : step s = .next (takeFault s (illegalFault 0)) := by
  have hfetch := fetch_of_covers hcovers
  rw [hzero 0 (by decide), hzero 1 (by decide), hzero 2 (by decide), hzero 3 (by decide)] at hfetch
  exact step_of_illegal hrun hfetch (by decide)

/-- Settles O53: four zero bytes are the illegal word 0, and the bank of an empty image holds them at its base. -/
theorem zeroWordHaltsWithIllegalInstruction : Obligations.ZeroWordHaltsWithIllegalInstruction := by
  refine ⟨fun s => step_of_zero_bytes, fun p s h hcap => ?_⟩
  obtain ⟨-, -, rfl⟩ := construct_eq_ok h
  have hcovers : p.covers p.memBase 4 := ⟨Nat.le_refl _, by omega⟩
  exact step_of_zero_bytes rfl hcovers fun k _ => rfl

/-! ## FU's ports (R126) -/

theorem fuIn_req_iff (s : State) : (fuIn s).req = true ↔ s.run = .running := decide_eq_true_iff

/-- A load's write data is not read. -/
theorem busCycle_wdata_of_load (s : State) {q : BusIn} (hwe : q.we = false) (v : Word) :
    busCycle s { q with wdata := v } = busCycle s q := by
  cases hreq : q.req with
  | false => simp [busCycle, hreq]
  | true => simp [busCycle, hreq, hwe]

/-- While Running, FU shows the word of a fetch that succeeds, or the fault of one that does not. -/
theorem fuOut_of_running {s : State} (h : s.run = .running) :
    (∃ w, fetch s = .ok w ∧ fuOut s = { word := some w, fault := none }) ∨
    ∃ f, fetch s = .error f ∧ fuOut s = { word := none, fault := some f } := by
  have hreq : fuIn s = { req := true, pc := s.pc } := by rw [fuIn, h]; rfl
  rw [fuOut, hreq]
  rcases busLoad_cases s s.pc 32 with ⟨-, e⟩ | ⟨-, e⟩
  · exact .inl ⟨_, by rw [fetch, e], by simp [fuCycle, fuDrives, busCycle, e]⟩
  · exact .inr ⟨_, by rw [fetch, e], by simp [fuCycle, fuDrives, busCycle, e]⟩

/-- While Halted, FU requests nothing and shows nothing. -/
theorem fuOut_of_halted {s : State} (h : s.run = .halted) : fuOut s = { word := none, fault := none } := by
  have hreq : fuIn s = { req := false, pc := s.pc } := by rw [fuIn, h]; rfl
  rw [fuOut, hreq]
  rfl

/-- Settles O21: the request by its definition, the outputs by what the fetch answers. -/
theorem fetchPortsShowTheFetch : Obligations.FetchPortsShowTheFetch := by
  refine fun s => ⟨fuIn_req_iff s, rfl, rfl, rfl, rfl, rfl, busCycle_wdata_of_load s rfl, fun hrun => ?_,
    fuOut_of_halted⟩
  rcases fuOut_of_running hrun with ⟨w, hf, e⟩ | ⟨f, hf, e⟩
  · simp [hf, e]
  · simp [hf, e]

/-! ## How long a run can be (R134) -/

theorem serve_step_halted {s : State} (h : s.run = .halted) : (serve .step s).2 = s := by
  rw [serve_step_of_halted h]

theorem stepN_of_halted {s : State} (h : s.run = .halted) (n : Nat) : stepN n s = s := by
  induction n with
  | zero => rfl
  | succ n ih => rw [stepN, serve_step_halted h, ih]

/-- A host step halts the CORE, or it was Running on a pc the bank covers and now stands four bytes further, with the
same parameters. -/
theorem serve_step_progress (s : State) :
    (serve .step s).2.run = .halted ∨
    (s.cfg.covers s.pc 4 ∧ (serve .step s).2.pc = s.pc + 4 ∧ (serve .step s).2.cfg = s.cfg) := by
  rcases step_cases s with ⟨h, -⟩ | ⟨-, f, -, e⟩ | ⟨-, -, v, -, -, e⟩ | ⟨-, w, i, hf, -, e⟩
  · exact .inl (by rw [serve_step_halted h, h])
  · exact .inl (by rw [serve_step_of_next e]; rfl)
  · exact .inl (by rw [serve_step_of_next e]; rfl)
  · obtain ⟨rd, v, ev⟩ := exec_retires i s
    rw [serve_step_of_next (e.trans ev)]
    refine .inr ⟨?_, rfl, rfl⟩
    by_contra hn
    rw [fetch_of_not_covers hn] at hf
    cases hf

/-- The bytes from an address to the end of the bank. -/
def bytesLeft (p : Params) (a : Word) : Nat := p.memBase.toNat + p.memCapacity - a.toNat

/-- Four bytes further into the bank, four bytes fewer are left: unless the bank is the whole space, the address does
not wrap back into it. -/
theorem bytesLeft_add_four {p : Params} (hlegal : p.legal = true) (hspace : ¬ p.wholeSpace) {a : Word}
    (ha : p.covers a 4) (ha' : p.covers (a + 4) 4) : bytesLeft p (a + 4) + 4 = bytesLeft p a := by
  obtain ⟨-, htop⟩ := (legal_iff p).1 hlegal
  obtain ⟨hle, hfits⟩ := ha
  obtain ⟨hle', -⟩ := ha'
  have hsum : (a + 4).toNat = (a.toNat + 4) % 2 ^ 64 := BitVec.toNat_add a 4
  have hnowrap : a.toNat + 4 < 2 ^ 64 := by
    by_contra hwrap
    have hbase : p.memBase.toNat = 0 := by omega
    exact hspace ⟨BitVec.eq_of_toNat_eq hbase, by omega⟩
  rw [bytesLeft, bytesLeft, hsum, Nat.mod_eq_of_lt hnowrap]
  omega

/-- A bank with fewer than `4 * n` bytes left from a covered pc is run off within `n` steps. -/
theorem stepN_halts {n : Nat} {s : State} (hlegal : s.cfg.legal = true) (hspace : ¬ s.cfg.wholeSpace)
    (hleft : s.cfg.covers s.pc 4 → bytesLeft s.cfg s.pc < 4 * (n + 1)) : (stepN (n + 1) s).run = .halted := by
  induction n generalizing s with
  | zero =>
    rcases serve_step_progress s with h | ⟨hcovers, -, -⟩
    · exact h
    · have hfew := hleft hcovers
      obtain ⟨hle, hfits⟩ := hcovers
      rw [bytesLeft] at hfew
      omega
  | succ n ih =>
    rw [stepN]
    rcases serve_step_progress s with h | ⟨hcovers, hpc, hcfg⟩
    · rw [stepN_of_halted h, h]
    · refine ih (hcfg.symm ▸ hlegal) (hcfg.symm ▸ hspace) fun hcovers' => ?_
      rw [hcfg, hpc] at hcovers' ⊢
      have hfew := hleft hcovers
      have hfour := bytesLeft_add_four hlegal hspace hcovers hcovers'
      omega

/-- Settles O54: from a covered pc no more than the capacity is left, and each step that does not halt uses up four
bytes of it. -/
theorem everyRunHaltsWithinTheCapacityBound : Obligations.EveryRunHaltsWithinTheCapacityBound := by
  refine fun s hlegal hspace => stepN_halts hlegal hspace fun ⟨hle, _⟩ => ?_
  rw [bytesLeft]
  omega

end Sys2Proof.Machine
end
